-- ==== Sys2Proof/Word.lean ====
section
/-! DEFINITION. The widths of the core's values and the two conversions between numbers and ports
(spec/00_scope.md R5 to R8). Buffers are carried as `int(buf)` (R7), so a buffer of `L` bytes is a
`BitVec (8 * L)` whose MSB-first bit `i` is `getMsbD i`. -/

namespace Sys2Proof

/-- A 16-byte buffer (an identifier, the random vector), R54. -/
abbrev Ident := BitVec 128

/-- An 8-byte source buffer, or the 64-bit unsigned value it holds, R54. -/
abbrev Source := BitVec 64

/-- The command word, R52. -/
abbrev Command := BitVec 32

/-- A small operand field `a`, `b` or `c` of the command word, R52. -/
abbrev Field := BitVec 8

/-- `zext_64` of R8: a natural number below `2^64` on a 64-bit port. -/
def zext64 (v : Nat) : BitVec 64 := BitVec.ofNat 64 v

/-- `buf_16` of R7: the 16-byte buffer whose big-endian integer is `v`. -/
def buf16 (v : Nat) : Ident := BitVec.ofNat 128 v

end Sys2Proof
end

