-- ==== Sys2Proof/Syntax.lean ====
section
/-! DEFINITION. The fourteen operations of the opcode map (spec/30_encoding.md R58), one constructor
for each row of spec/opcode_table.json, with the fields of the command word each one uses (R53).
Data ports are not part of an instruction: they are sampled with it (R51). -/

namespace Sys2Proof

/-- `sel` of `GETBIT` and `SETBIT`: which operand buffer (R52). -/
inductive BufSel where
  | opId    -- `sel` = 0: the 16-byte buffer `op_id`
  | opSrc   -- `sel` = 1: the 8-byte buffer `op_src`
deriving DecidableEq, Repr

inductive Instr where
  /-- `NOP` (R101). -/
  | nop
  /-- `CFG`: sub-second width, counter width, node width (R103). -/
  | cfg (sub cnt node : Field)
  /-- `NEXT` (R115). -/
  | next
  /-- `GETBIT`: buffer, MSB-first bit index (R70). -/
  | getbit (sel : BufSel) (index : Field)
  /-- `SETBIT`: buffer, MSB-first bit index, new value `c[0]` (R71). -/
  | setbit (sel : BufSel) (index : Field) (v : Bool)
  /-- `MAP`: logical payload offset (R75). -/
  | map (l : Field)
  /-- `STACK`: starting logical position, bit length (R79). -/
  | stack (start len : Field)
  /-- `ENCDEC`: bits (R87). -/
  | encdec (bits : Field)
  /-- `DECDEC`: bits (R88). -/
  | decdec (bits : Field)
  /-- `GETTS` (R93). -/
  | getts
  /-- `GETVER` (R94). -/
  | getver
  /-- `GETVAR` (R95). -/
  | getvar
  /-- `GETPAY`: starting logical offset, length in bits (R96). -/
  | getpay (start len : Field)
  /-- `RDREG`: register number (R125). -/
  | rdreg (number : Field)
deriving DecidableEq, Repr

/-- Pseudo-operation `NEW` of R63: the construction of a generator is `CFG`. -/
def Instr.newGenerator (sub cnt node : Field) : Instr := .cfg sub cnt node

/-- Pseudo-operation `GETPAYLOAD` of R63: the whole 86-bit payload. -/
def Instr.getPayload : Instr := .getpay 0 86

end Sys2Proof
end

