-- ==== Sys2Proof/Decode.lean ====
section
/-! DEFINITION. The command word: its fields (spec/30_encoding.md R52), the decoder (R53, R58, R60 (a)
to (c)), the encoder, and the opcode table of R58 as data. Operand legality, R60 (d) and (e), is the
operation's own rule (R58 "operand legality beyond that is the operation's rule"). -/

namespace Sys2Proof

/-- Why a word is no command: clauses (a), (b), (c) of R60. -/
inductive Reject where
  | reservedOpcode   -- (a) `op` is 0xE or 0xF
  | reservedField    -- (b) `rsv` is not 0
  | unusedField      -- (c) a field the operation does not use is not 0
deriving DecidableEq, Repr

def opField (w : Command) : BitVec 4 := w.extractLsb' 28 4
def selField (w : Command) : BitVec 1 := w.extractLsb' 27 1
def rsvField (w : Command) : BitVec 3 := w.extractLsb' 24 3
def aField (w : Command) : Field := w.extractLsb' 16 8
def bField (w : Command) : Field := w.extractLsb' 8 8
def cField (w : Command) : Field := w.extractLsb' 0 8

/-- The buffer a `sel` bit names (R52). -/
def bufSelOf (sel : BitVec 1) : BufSel := if sel = 0#1 then .opId else .opSrc

/-- R60 (c): the operation stands only if every field it does not use is 0. -/
def ifUnusedZero (zero : Bool) (i : Instr) : Except Reject Instr :=
  if zero then .ok i else .error .unusedField

/-- The decoder. Every one of the 2^32 words is an operation or is rejected by name (R60). -/
def decode (w : Command) : Except Reject Instr :=
  let sel := selField w
  let a := aField w
  let b := bField w
  let c := cField w
  if rsvField w = 0#3 then
    match (opField w).toNat with
    | 0 => ifUnusedZero (sel = 0#1 ∧ a = 0#8 ∧ b = 0#8 ∧ c = 0#8) .nop
    | 1 => ifUnusedZero (sel = 0#1) (.cfg a b c)
    | 2 => ifUnusedZero (sel = 0#1 ∧ a = 0#8 ∧ b = 0#8 ∧ c = 0#8) .next
    | 3 => ifUnusedZero (b = 0#8 ∧ c = 0#8) (.getbit (bufSelOf sel) a)
    | 4 => ifUnusedZero (b = 0#8 ∧ c.extractLsb' 1 7 = 0#7) (.setbit (bufSelOf sel) a (c.getLsbD 0))
    | 5 => ifUnusedZero (sel = 0#1 ∧ b = 0#8 ∧ c = 0#8) (.map a)
    | 6 => ifUnusedZero (sel = 0#1 ∧ c = 0#8) (.stack a b)
    | 7 => ifUnusedZero (sel = 0#1 ∧ a = 0#8 ∧ c = 0#8) (.encdec b)
    | 8 => ifUnusedZero (sel = 0#1 ∧ a = 0#8 ∧ c = 0#8) (.decdec b)
    | 9 => ifUnusedZero (sel = 0#1 ∧ a = 0#8 ∧ b = 0#8 ∧ c = 0#8) .getts
    | 10 => ifUnusedZero (sel = 0#1 ∧ a = 0#8 ∧ b = 0#8 ∧ c = 0#8) .getver
    | 11 => ifUnusedZero (sel = 0#1 ∧ a = 0#8 ∧ b = 0#8 ∧ c = 0#8) .getvar
    | 12 => ifUnusedZero (sel = 0#1 ∧ c = 0#8) (.getpay a b)
    | 13 => ifUnusedZero (sel = 0#1 ∧ b = 0#8 ∧ c = 0#8) (.rdreg a)
    | _ => .error .reservedOpcode
  else .error .reservedField

/-- `op` of each operation (R58). -/
def Instr.opcode : Instr → BitVec 4
  | .nop => 0x0
  | .cfg _ _ _ => 0x1
  | .next => 0x2
  | .getbit _ _ => 0x3
  | .setbit _ _ _ => 0x4
  | .map _ => 0x5
  | .stack _ _ => 0x6
  | .encdec _ => 0x7
  | .decdec _ => 0x8
  | .getts => 0x9
  | .getver => 0xA
  | .getvar => 0xB
  | .getpay _ _ => 0xC
  | .rdreg _ => 0xD

/-- `cmd = op << 28 | sel << 27 | rsv << 24 | a << 16 | b << 8 | c` with `rsv` = 0 (R52). -/
def pack (op : BitVec 4) (sel : BitVec 1) (a b c : Field) : Command :=
  op.setWidth 32 <<< 28 ||| sel.setWidth 32 <<< 27 ||| a.setWidth 32 <<< 16
    ||| b.setWidth 32 <<< 8 ||| c.setWidth 32

def BufSel.bit : BufSel → BitVec 1
  | .opId => 0
  | .opSrc => 1

/-- The encoder: the word of an operation, unused fields 0 (R53). -/
def encode (i : Instr) : Command :=
  match i with
  | .nop => pack i.opcode 0 0 0 0
  | .cfg sub cnt node => pack i.opcode 0 sub cnt node
  | .next => pack i.opcode 0 0 0 0
  | .getbit sel index => pack i.opcode sel.bit index 0 0
  | .setbit sel index v => pack i.opcode sel.bit index 0 ((BitVec.ofBool v).setWidth 8)
  | .map l => pack i.opcode 0 l 0 0
  | .stack start len => pack i.opcode 0 start len 0
  | .encdec bits => pack i.opcode 0 0 bits 0
  | .decdec bits => pack i.opcode 0 0 bits 0
  | .getts => pack i.opcode 0 0 0 0
  | .getver => pack i.opcode 0 0 0 0
  | .getvar => pack i.opcode 0 0 0 0
  | .getpay start len => pack i.opcode 0 start len 0
  | .rdreg number => pack i.opcode 0 number 0 0

/-- One row of the opcode map. -/
structure OpcodeRow where
  op    : BitVec 4
  value : Command
  mask  : Command
deriving DecidableEq, Repr

/-- The opcode map of R58, `match` and `mask` as written there. -/
def opcodeTable : List OpcodeRow :=
  [⟨0x0, 0x00000000, 0xFFFFFFFF⟩, ⟨0x1, 0x10000000, 0xFF000000⟩, ⟨0x2, 0x20000000, 0xFFFFFFFF⟩,
   ⟨0x3, 0x30000000, 0xF700FFFF⟩, ⟨0x4, 0x40000000, 0xF700FFFE⟩, ⟨0x5, 0x50000000, 0xFF00FFFF⟩,
   ⟨0x6, 0x60000000, 0xFF0000FF⟩, ⟨0x7, 0x70000000, 0xFFFF00FF⟩, ⟨0x8, 0x80000000, 0xFFFF00FF⟩,
   ⟨0x9, 0x90000000, 0xFFFFFFFF⟩, ⟨0xA, 0xA0000000, 0xFFFFFFFF⟩, ⟨0xB, 0xB0000000, 0xFFFFFFFF⟩,
   ⟨0xC, 0xC0000000, 0xFF0000FF⟩, ⟨0xD, 0xD0000000, 0xFF00FFFF⟩]

/-- The command word that the opcode table's numbering calls `w`: there is one word length, 32 bits
(R52, R61), and the table numbers its bits as R52 does. -/
def commandOfTableWord (nbits w : Nat) : Command := BitVec.ofNat 32 (w % 2 ^ nbits)

/-- What the decoder reads from the instruction whose bits are `w`, numbered as the opcode table
numbers them. -/
def decodeTableWord (nbits w : Nat) : Option Instr :=
  match decode (commandOfTableWord nbits w) with
  | .ok i => some i
  | .error _ => none

end Sys2Proof
end

