-- ==== Sys2Proof/Config.lean ====
section
/-! DEFINITION. The parameters of the core (spec/00_scope.md R4 and R5). The spec fixes all of them
except `LATENCY(op)`, which no rule depends on (R175) and which the model does not count
(log entry 1). No free value stands here: what is left open is an input (log entry 2). -/

namespace Sys2Proof.Config

/-- `TS_BITS`: width of the whole-second timestamp, absolute bits 0 to 35 (R4). -/
@[simp] def tsBits : Nat := 36

/-- `PAYLOAD_BITS`: all remaining bits, 128 - 36 - 4 - 2 (R4). -/
@[simp] def payloadBits : Nat := 86

/-- `MAP_T1`: `absolute` adds 4 above this logical offset (R4, R37). -/
@[simp] def mapT1 : Nat := 11

/-- `MAP_T2`: `absolute` adds 2 above this logical offset (R4, R37). -/
@[simp] def mapT2 : Nat := 23

/-- `W_MAX`: largest legal value of each configured width (R5, R104). -/
@[simp] def wMax : Nat := 64

end Sys2Proof.Config
end

