-- ==== Sys2Proof/Machine/State.lean ====
section
/-! DEFINITION. The state of the core as plain data: the thirteen registers (spec/10_state.md R10), the
hidden command in flight (R27), the response port (spec/30_encoding.md R57), and the inputs the host
will drive at the coming clock edges (R50, R55; log entry 2). Reset values: R28. -/

namespace Sys2Proof.Machine

/-- `FSM`, 2 bits (R12). The value 3 is reserved and never entered. -/
inductive Fsm where
  | idle
  | busy
  | fault
  | reserved
deriving DecidableEq, Repr

/-- The one code space of `rsp_status` and `CAUSE` (R59). `formatError` is never raised (R133). -/
inductive Code where
  | ok
  | formatError
  | configurationError
  | entropyFailure
  | bitIndexOutOfRange
  | notConfigured
  | illegalCommand
deriving DecidableEq, Repr

/-- Which kind of buffer an out-of-range access named, `FINFO[16]` (R24). -/
inductive BufKind where
  | identifier
  | source
deriving DecidableEq, Repr

/-- `BitIndexOutOfRange(index, buffer kind)` of R35: what an offending access raises. -/
structure BitFault where
  kind  : BufKind
  index : Nat
deriving DecidableEq, Repr

/-- The thirteen registers of R10. -/
structure Regs where
  fsm            : Fsm
  configured     : Bool
  cfgSubsecBits  : BitVec 7
  cfgCounterBits : BitVec 7
  cfgNodeBits    : BitVec 7
  cfgNodeValue   : BitVec 64
  prevSubsec     : BitVec 64
  prevValid      : Bool
  counter        : BitVec 64
  counterActive  : Bool
  cursor         : BitVec 8
  cause          : BitVec 4
  finfo          : BitVec 17
deriving DecidableEq, Repr

/-- The ports sampled together at the acceptance of a command (R51). -/
structure Sampled where
  cmd     : Command
  opId    : Ident
  opSrc   : Source
  nowSec  : BitVec 64
  nowNsec : BitVec 30
  rnd     : Ident
  rndOk   : Bool
deriving DecidableEq, Repr

/-- What the host drives at one rising edge of `clk` (R50). -/
structure Inputs where
  rst      : Bool
  cmdValid : Bool
  data     : Sampled
deriving DecidableEq, Repr

/-- `rsp_status`, `rsp_id`, `rsp_val` while `rsp_valid` = 1 (R57). -/
structure Response where
  status : BitVec 4
  id     : Ident
  val    : BitVec 64
deriving DecidableEq, Repr

structure State where
  /-- The architectural registers. -/
  regs    : Regs
  /-- The command in flight with the inputs sampled with it; read only while `FSM` = BUSY (R27). -/
  sampled : Sampled
  /-- The response port; `none` is `rsp_valid` = 0 (R57, log entry 4). -/
  rsp     : Option Response
  /-- The host's coming inputs, the next edge first; past the end it offers nothing (log entry 2). -/
  inputs  : List Inputs
deriving DecidableEq, Repr

/-- Why the model stops. -/
inductive Fault where
  /-- Raised by `step` alone, in the reserved value 3 of `FSM`, which is never entered (R12, V6 of
  spec/93_implementation_defined.md): no rule gives a step there. Safe: no reachable state stops. -/
  | reservedFsm
deriving DecidableEq, Repr

/-- What the model declines. -/
inductive Refusal where
  /-- Raised by `exec` for an instruction that has no meaning yet, by its mnemonic. Safe. No arm
  raises it: every instruction has its meaning. -/
  | notModelled (mnemonic : String)
deriving DecidableEq, Repr

/-- Every register at its reset value (R28). -/
def Regs.reset : Regs where
  fsm            := .idle
  configured     := false
  cfgSubsecBits  := 0
  cfgCounterBits := 0
  cfgNodeBits    := 0
  cfgNodeValue   := 0
  prevSubsec     := 0
  prevValid      := false
  counter        := 0
  counterActive  := false
  cursor         := 0
  cause          := 0
  finfo          := 0

/-- No command sampled yet (DESIGN CHOICE, log entry 3: hidden and unobservable). -/
def Sampled.reset : Sampled where
  cmd     := 0
  opId    := 0
  opSrc   := 0
  nowSec  := 0
  nowNsec := 0
  rnd     := 0
  rndOk   := false

/-- The machine right after reset (R28, R151): nothing in flight, `rsp_valid` = 0. The host's script
is empty (DESIGN CHOICE, log entry 2). -/
def State.reset : State where
  regs    := Regs.reset
  sampled := Sampled.reset
  rsp     := none
  inputs  := []

end Sys2Proof.Machine
end

