-- ==== Sys2Proof/Machine/Operands.lean ====
section
/-! DEFINITION. The bit-address spaces (spec/20_memory.md): the primitives `getBit` and `setBit` with
their range check (R33 to R35), the index mapping `absolute` (R37), and the loops that move several
bits (R40). A buffer of `w` bits is `int(buf)` (R7), MSB-first bit `i` is `getMsbD i`. -/

namespace Sys2Proof.Machine

/-- `getBit(buf, i)` (R33, R35). -/
def getBit {w : Nat} (kind : BufKind) (buf : BitVec w) (i : Nat) : Except BitFault Bool :=
  if i < w then .ok (buf.getMsbD i) else .error ⟨kind, i⟩

/-- The buffer with bit `i` replaced, for `i` in range: the update of R34. -/
def putBit {w : Nat} (buf : BitVec w) (i : Nat) (v : Bool) : BitVec w :=
  (buf &&& ~~~(1#w <<< (w - 1 - i))) ||| ((BitVec.ofBool v).setWidth w <<< (w - 1 - i))

/-- `setBit(buf, i, v)` (R34, R35). -/
def setBit {w : Nat} (kind : BufKind) (buf : BitVec w) (i : Nat) (v : Bool) :
    Except BitFault (BitVec w) :=
  if i < w then .ok (putBit buf i v) else .error ⟨kind, i⟩

/-- `absolute(l)`: logical payload offset to absolute identifier index (R37). -/
def absolute (l : Nat) : Nat :=
  Config.tsBits + l + (if l > Config.mapT1 then 4 else 0) + (if l > Config.mapT2 then 2 else 0)

/-- Write bit `val k` at index `dst k` for `n` values of `k` in ascending order, from `k` on. Used
where the indices are in range by construction (R107, R112). -/
def writeBits (dst : Nat → Nat) (val : Nat → Bool) : (n k : Nat) → Ident → Ident
  | 0, _, id => id
  | n + 1, k, id => writeBits dst val n (k + 1) (putBit id (dst k) (val k))

/-- `f := 2*f + bit` for `n` values of `k` in ascending order, from `k` on (R93, R96). -/
def readBits (bit : Nat → Bool) : (n k f : Nat) → Nat
  | 0, _, f => f
  | n + 1, k, f => readBits bit n (k + 1) (2 * f + (bit k).toNat)

/-- The loop of `stack` (R78): the source check comes before the destination check at each `k`. -/
def stackLoop (start : Nat) (src : Source) : (n k : Nat) → Ident → Except BitFault Ident
  | 0, _, id => .ok id
  | n + 1, k, id =>
    if k > 63 then .error ⟨.source, k⟩
    else
      match setBit .identifier id (absolute (start + k)) (src.getLsbD k) with
      | .ok id' => stackLoop start src n (k + 1) id'
      | .error e => .error e

/-- `stack(id, start, src, n)` (R78): the identifier written and the next logical position. -/
def stack (id : Ident) (start : Nat) (src : Source) (n : Nat) : Except BitFault (Ident × Nat) :=
  match stackLoop start src n 0 id with
  | .ok id' => .ok (id', start + n)
  | .error e => .error e

/-- The loop of `GETPAY` (R96). -/
def payloadLoop (id : Ident) (start : Nat) : (n k f : Nat) → Except BitFault Nat
  | 0, _, f => .ok f
  | n + 1, k, f =>
    match getBit .identifier id (absolute (start + k)) with
    | .ok v => payloadLoop id start n (k + 1) (2 * f + v.toNat)
    | .error e => .error e

/-- `GETBIT`'s access: bit `i` of the buffer `sel` names (R70). -/
def getOperandBit (sel : BufSel) (x : Sampled) (i : Nat) : Except BitFault Bool :=
  match sel with
  | .opId => getBit .identifier x.opId i
  | .opSrc => getBit .source x.opSrc i

end Sys2Proof.Machine
end

