-- ==== Sys2Proof/Machine/Flags.lean ====
section
/-! DEFINITION. What decides the core's three flags, and the view that shows them: legality of a
configuration (`CONFIGURED`, spec/45_generator.md R104), the tie-break (`COUNTER_ACTIVE`, R109) and
`STATUS` (spec/10_state.md R25). There are no arithmetic flags (R9). -/

namespace Sys2Proof.Machine

/-- A configuration is legal: each width at most 64, the sum at most 86, compared as natural numbers
(R104, R56). -/
def configLegal (sub cnt node : Nat) : Bool :=
  decide (sub ≤ Config.wMax ∧ cnt ≤ Config.wMax ∧ node ≤ Config.wMax
    ∧ sub + cnt + node ≤ Config.payloadBits)

/-- `PREV_VALID = 1 and enc = PREV_SUBSEC`: the new encoding ties with the recorded one (R109). -/
def tieBreak (r : Regs) (enc : BitVec 64) : Bool := r.prevValid && decide (enc = r.prevSubsec)

/-- The new `COUNTER`: `trunc_64(COUNTER + 1)` on a tie, else 0 (R109). -/
def nextCounter (r : Regs) (tie : Bool) : BitVec 64 := if tie then r.counter + 1 else 0

/-- One flag at bit `k` of a 64-bit view. -/
def flagAt (v : Bool) (k : Nat) : BitVec 64 := (BitVec.ofBool v).setWidth 64 <<< k

/-- The `STATUS` view of `RDREG` number 7 (R25). -/
def statusView (r : Regs) : BitVec 64 :=
  flagAt r.configured 0 ||| flagAt r.prevValid 1 ||| flagAt r.counterActive 2
    ||| r.cause.setWidth 64 <<< 4

end Sys2Proof.Machine
end

