-- ==== Sys2Proof/Machine/Ops.lean ====
section
/-! DEFINITION. The named operations every meaning is written with: the codes (spec/30_encoding.md R59),
the response (R57), the refusal (R102), fault entry (spec/60_exceptions.md R136) and the only way back
from it, the reset edge (R139, R150), acceptance of a command (R51), the register file `RDREG` reads
(spec/10_state.md R26), and the level outputs (R50, R64). -/

namespace Sys2Proof.Machine

/-- The number of a code (R59). -/
def Code.bits : Code → BitVec 4
  | .ok => 0
  | .formatError => 1
  | .configurationError => 2
  | .entropyFailure => 3
  | .bitIndexOutOfRange => 4
  | .notConfigured => 5
  | .illegalCommand => 6

/-- The 2-bit value of `FSM` (R12). -/
def Fsm.bits : Fsm → BitVec 2
  | .idle => 0
  | .busy => 1
  | .fault => 2
  | .reserved => 3

/-- `FINFO[16]` (R24). -/
def BufKind.bit : BufKind → BitVec 1
  | .identifier => 0
  | .source => 1

/-- `FINFO` of an out-of-range access: kind in bit 16, index in bits 15 to 0 (R24). -/
def BitFault.finfo (e : BitFault) : BitVec 17 := e.kind.bit ++ BitVec.ofNat 16 e.index

/-- `respond(status, id, val)` (R57), and `FSM <- IDLE` (R51 (a), (b)). -/
def respond (code : Code) (id : Ident) (val : BitVec 64) (s : State) : State :=
  { s with
    rsp := some { status := code.bits, id := id, val := val }
    regs := { s.regs with fsm := .idle } }

/-- A recoverable status: no register written, the data fields 0 (R57, R102). -/
def refuse (code : Code) (s : State) : State := respond code 0 0 s

/-- `raise <Name>(info)`: entry to the fatal fault. `CAUSE`, `FINFO` and `FSM` are written, nothing
else, and there is no response (R136). -/
def raise (code : Code) (info : BitVec 17) (s : State) : State :=
  { s with
    rsp := none
    regs := { s.regs with fsm := .fault, cause := code.bits, finfo := info } }

/-- `raise BitIndexOutOfRange` for the offending access `e` (R35, R137). -/
def raiseBitIndex (e : BitFault) (s : State) : State := raise .bitIndexOutOfRange e.finfo s

/-- A rising edge with `rst` = 1: every register to its reset value, whatever the core was doing, the
command in flight abandoned (R126, R150, R152). The only way out of `FAULT` (R139). The host's coming
inputs are not the core's and stay. -/
def resetEdge (s : State) : State :=
  { s with regs := Regs.reset, sampled := Sampled.reset, rsp := none }

/-- Acceptance of a command: the ports are sampled at once and `FSM <- BUSY` (R51). -/
def acceptCommand (x : Sampled) (s : State) : State :=
  { s with sampled := x, rsp := none, regs := { s.regs with fsm := .busy } }

/-- An edge at which no command is accepted or answered: no register changes, `rsp_valid` = 0
(R50, R126). -/
def quietEdge (s : State) : State := { s with rsp := none }

/-- An edge at which the host offers nothing: what it drives past the end of its script
(log entry 2). -/
def Inputs.quiet : Inputs where
  rst := false
  cmdValid := false
  data := Sampled.reset

/-- The inputs at the coming edge (R50, log entry 2). -/
def inputsNow (s : State) : Inputs := s.inputs.headD Inputs.quiet

/-- The state with that edge's inputs used up. -/
def pastEdge (s : State) : State := { s with inputs := s.inputs.tail }

/-- The inputs with `rst` = 0. -/
def Inputs.withoutReset (p : Inputs) : Inputs := { p with rst := false }

/-- The coming edge's inputs, if any are scripted, with `rst` = 0. -/
def clearNextReset : List Inputs → List Inputs
  | [] => []
  | p :: rest => p.withoutReset :: rest

/-- `reg(n)` (R26): the register number `n`, 0 to 7, on the 64-bit result port. -/
def regView (r : Regs) (n : Nat) : Option (BitVec 64) :=
  match n with
  | 0 => some (r.cfgSubsecBits.setWidth 64)
  | 1 => some (r.cfgCounterBits.setWidth 64)
  | 2 => some (r.cfgNodeBits.setWidth 64)
  | 3 => some r.cfgNodeValue
  | 4 => some r.prevSubsec
  | 5 => some r.counter
  | 6 => some (r.cursor.setWidth 64)
  | 7 => some (statusView r)
  | _ => none

/-- The output `cmd_ready` (R50). -/
def State.cmdReady (s : State) : Bool := decide (s.regs.fsm = .idle)

/-- The output `rsp_valid` (R50, R57). -/
def State.rspValid (s : State) : Bool := s.rsp.isSome

/-- The level output `fault` (R64). -/
def State.faultOut (s : State) : Bool := decide (s.regs.fsm = .fault)

/-- The level output `cause` (R64). -/
def State.causeOut (s : State) : BitVec 4 := s.regs.cause

/-- The level output `finfo` (R64). -/
def State.finfoOut (s : State) : BitVec 17 := s.regs.finfo

end Sys2Proof.Machine
end

