-- ==== Sys2Proof/Machine/Accessors.lean ====
section
/-! DEFINITION. `GETTS`, `GETVER`, `GETVAR`, `GETPAY` (spec/44_accessors.md): pure views of `op_id`, with
no validation (R97). The first three read constant indices below 128, so nothing is range-checked. -/

namespace Sys2Proof.Machine

/-- The timestamp: absolute bits 0 to 35, bit 0 most significant (R93). -/
def timestampOf (id : Ident) : Nat := readBits id.getMsbD Config.tsBits 0 0

/-- The version marker: absolute bits 48 to 51 (R94). -/
def versionOf (id : Ident) : Nat :=
  8 * (id.getMsbD 48).toNat + 4 * (id.getMsbD 49).toNat + 2 * (id.getMsbD 50).toNat
    + (id.getMsbD 51).toNat

/-- The variant marker: absolute bits 64 and 65 (R95). -/
def variantOf (id : Ident) : Nat := 2 * (id.getMsbD 64).toNat + (id.getMsbD 65).toNat

/-- `GETTS` (R93). -/
def execGetts (s : State) : Host.Outcome State Fault Refusal :=
  .next (respond .ok 0 (zext64 (timestampOf s.sampled.opId)) s)

/-- `GETVER` (R94). -/
def execGetver (s : State) : Host.Outcome State Fault Refusal :=
  .next (respond .ok 0 (zext64 (versionOf s.sampled.opId)) s)

/-- `GETVAR` (R95). -/
def execGetvar (s : State) : Host.Outcome State Fault Refusal :=
  .next (respond .ok 0 (zext64 (variantOf s.sampled.opId)) s)

/-- `GETPAY` (R96): the payload bits from `start` on, right-aligned, not un-reversed. -/
def execGetpay (start len : Field) (s : State) : Host.Outcome State Fault Refusal :=
  match payloadLoop s.sampled.opId start.toNat len.toNat 0 0 with
  | .ok f => .next (respond .ok (buf16 f) 0 s)
  | .error e => .next (raiseBitIndex e s)

end Sys2Proof.Machine
end

