-- ==== Sys2Proof/Machine/BitPrimitives.lean ====
section
/-! DEFINITION. `GETBIT` and `SETBIT` (spec/40_bit_primitives.md). -/

namespace Sys2Proof.Machine

/-- `GETBIT` (R70). -/
def execGetbit (sel : BufSel) (index : Field) (s : State) : Host.Outcome State Fault Refusal :=
  match getOperandBit sel s.sampled index.toNat with
  | .ok v => .next (respond .ok 0 (zext64 v.toNat) s)
  | .error e => .next (raiseBitIndex e s)

/-- `SETBIT` (R71): the new buffer is `rsp_id` for `op_id` and `rsp_val` for `op_src`. -/
def execSetbit (sel : BufSel) (index : Field) (v : Bool) (s : State) :
    Host.Outcome State Fault Refusal :=
  match sel with
  | .opId =>
    match setBit .identifier s.sampled.opId index.toNat v with
    | .ok buf => .next (respond .ok buf 0 s)
    | .error e => .next (raiseBitIndex e s)
  | .opSrc =>
    match setBit .source s.sampled.opSrc index.toNat v with
    | .ok buf => .next (respond .ok 0 buf s)
    | .error e => .next (raiseBitIndex e s)

end Sys2Proof.Machine
end

