-- ==== Sys2Proof/Machine/FieldStacking.lean ====
section
/-! DEFINITION. `STACK` (spec/42_field_stacking.md). The function `stack` is in Operands.lean. -/

namespace Sys2Proof.Machine

/-- `STACK` (R79). It does not touch `CURSOR`. -/
def execStack (start len : Field) (s : State) : Host.Outcome State Fault Refusal :=
  match stack s.sampled.opId start.toNat s.sampled.opSrc len.toNat with
  | .ok (id, nextPosition) => .next (respond .ok id (zext64 nextPosition) s)
  | .error e => .next (raiseBitIndex e s)

end Sys2Proof.Machine
end

