-- ==== Sys2Proof/Machine/SubsecondCodec.lean ====
section
/-! DEFINITION. The fixed-point sub-second encoder and decoder, `ENCDEC` and `DECDEC`
(spec/43_subsecond_codec.md). Exact integer arithmetic, no number format in between (R85). -/

namespace Sys2Proof.Machine

/-- Decimal digits of `n`, given at least as much fuel as `n` has digits after the first. -/
def countDigits : (fuel n : Nat) → Nat
  | 0, _ => 1
  | fuel + 1, n => if n < 10 then 1 else 1 + countDigits fuel (n / 10)

/-- `digits10(n)` (R83); `digits10(0) = 1`. -/
def digits10 (n : Nat) : Nat := countDigits n n

/-- `encodeDecimal(n, b) = (n * 2^b) // 10^digits10(n)` (R84). -/
def encodeDecimal (n b : Nat) : Nat := n * 2 ^ b / 10 ^ digits10 n

/-- The result of `decodeDecimal`: a numerator and the place of its binary point (R86, R88). -/
structure FixedPoint where
  numerator : Nat
  places    : Nat
deriving DecidableEq, Repr

/-- The rational number a fixed-point pair stands for (R86). -/
def FixedPoint.value (x : FixedPoint) : ℚ := (x.numerator : ℚ) / 2 ^ x.places

/-- `decodeDecimal(v, b)`, the exact rational `v / 2^b` as a pair (R86). -/
def decodeDecimal (v b : Nat) : FixedPoint where
  numerator := v
  places := b

/-- `ENCDEC` (R87). -/
def execEncdec (bits : Field) (s : State) : Host.Outcome State Fault Refusal :=
  if bits.toNat > Config.wMax then .next (refuse .illegalCommand s)
  else .next (respond .ok 0 (zext64 (encodeDecimal s.sampled.opSrc.toNat bits.toNat)) s)

/-- `DECDEC` (R88): the response carries the numerator, the binary point is the operand `bits`. -/
def execDecdec (bits : Field) (s : State) : Host.Outcome State Fault Refusal :=
  if bits.toNat > Config.wMax then .next (refuse .illegalCommand s)
  else .next (respond .ok 0
    (zext64 (decodeDecimal s.sampled.opSrc.toNat bits.toNat).numerator) s)

end Sys2Proof.Machine
end

