-- ==== Sys2Proof/Machine/Generator.lean ====
section
/-! DEFINITION. The generator (spec/45_generator.md): `NOP`, `CFG`, `NEXT` phase by phase, `RDREG`. The
identifier under construction, `WORK`, lives inside one `NEXT` (R11). -/

namespace Sys2Proof.Machine

/-- `NOP` (R101). -/
def execNop (s : State) : Host.Outcome State Fault Refusal := .next (respond .ok 0 0 s)

/-- The registers a successful `CFG` leaves: the configuration, and the generator state of a generator
that has not been called (R103). -/
def configure (sub cnt node : Nat) (value : Source) (r : Regs) : Regs :=
  { r with
    cfgSubsecBits := BitVec.ofNat 7 sub
    cfgCounterBits := BitVec.ofNat 7 cnt
    cfgNodeBits := BitVec.ofNat 7 node
    cfgNodeValue := value
    configured := true
    prevSubsec := 0
    prevValid := false
    counter := 0
    counterActive := false
    cursor := 0 }

/-- `CFG` (R103): the widths are compared as natural numbers before they are stored (R56). -/
def execCfg (sub cnt node : Field) (s : State) : Host.Outcome State Fault Refusal :=
  if configLegal sub.toNat cnt.toNat node.toNat then
    .next (respond .ok 0 0
      { s with regs := configure sub.toNat cnt.toNat node.toNat s.sampled.opSrc s.regs })
  else .next (refuse .configurationError s)

/-- `P2_TIMESTAMP`: absolute bits 0 to 35 take `sec[35:0]`, most significant first (R107). -/
def packTimestamp (sec : BitVec 64) (work : Ident) : Ident :=
  writeBits (fun i => i) (fun i => sec.getLsbD (35 - i)) Config.tsBits 0 work

/-- The sub-second encoding of this call, 0 when no sub-second width is configured (R108). -/
def subsecEncoding (r : Regs) (x : Sampled) : BitVec 64 :=
  if r.cfgSubsecBits.toNat > 0 then zext64 (encodeDecimal x.nowNsec.toNat r.cfgSubsecBits.toNat)
  else 0

/-- One optional field, stacked at the cursor when it is present (R108, R110, R111). -/
def stackField (present : Bool) (src : Source) (n : Nat) (at_ : Ident × Nat) :
    Except BitFault (Ident × Nat) :=
  if present then stack at_.1 at_.2 src n else .ok at_

/-- `P7_RANDOM`: every payload position from the cursor on takes the random bit of its own index
(R112). -/
def fillRandom (rnd : Ident) (cur : Nat) (work : Ident) : Ident :=
  writeBits absolute (fun l => rnd.getMsbD (absolute l)) (Config.payloadBits - cur) cur work

/-- `P8_MARKERS`: version `0111` and variant `10`, the last write to `WORK` (R113). -/
def forceMarkers (work : Ident) : Ident :=
  let w := putBit (putBit (putBit (putBit work 48 false) 49 true) 50 true) 51 true
  putBit (putBit w 64 true) 65 false

/-- What the nine phases of one `NEXT` produce (R100). -/
structure Generated where
  id  : Ident
  enc : BitVec 64
  tie : Bool
  ctr : BitVec 64
  cur : Nat
deriving DecidableEq, Repr

/-- Phases P1 to P8 in their order (R106 to R113, R115). The field source of P5 is the new counter. -/
def generate (r : Regs) (x : Sampled) : Except BitFault Generated :=
  let enc := subsecEncoding r x
  let tie := tieBreak r enc
  let ctr := nextCounter r tie
  match stackField (decide (r.cfgSubsecBits.toNat > 0)) enc r.cfgSubsecBits.toNat
      (packTimestamp x.nowSec 0, 0) with
  | .error e => .error e
  | .ok afterSubsec =>
    match stackField tie ctr r.cfgCounterBits.toNat afterSubsec with
    | .error e => .error e
    | .ok afterCounter =>
      match stackField (decide (r.cfgNodeBits.toNat > 0)) r.cfgNodeValue r.cfgNodeBits.toNat
          afterCounter with
      | .error e => .error e
      | .ok (work, cur) =>
        .ok { id := forceMarkers (fillRandom x.rnd cur work), enc := enc, tie := tie, ctr := ctr,
              cur := cur }

/-- The registers a completed `NEXT` writes (R115). -/
def commitNext (g : Generated) (r : Regs) : Regs :=
  { r with
    counter := g.ctr
    counterActive := g.tie
    prevSubsec := g.enc
    prevValid := true
    cursor := BitVec.ofNat 8 g.cur }

/-- `NEXT` (R105, R115). No `stack` raises under a legal configuration (R81); the case is written as
the rule of `stack` gives it (log entry 9). -/
def execNext (s : State) : Host.Outcome State Fault Refusal :=
  if s.regs.configured = false then .next (refuse .notConfigured s)
  else if s.sampled.rndOk = false then .next (raise .entropyFailure 0 s)
  else
    match generate s.regs s.sampled with
    | .ok g => .next (respond .ok g.id 0 { s with regs := commitNext g s.regs })
    | .error e => .next (raiseBitIndex e s)

/-- `RDREG` (R125): numbers 8 to 255 name no register. -/
def execRdreg (number : Field) (s : State) : Host.Outcome State Fault Refusal :=
  match regView s.regs number.toNat with
  | some v => .next (respond .ok 0 v s)
  | none => .next (refuse .illegalCommand s)

end Sys2Proof.Machine
end

