-- ==== Sys2Proof/Machine/IndexMapping.lean ====
section
/-! DEFINITION. `MAP` (spec/41_index_mapping.md). -/

namespace Sys2Proof.Machine

/-- `MAP` (R75): the result is a number, not an index, so it never faults. -/
def execMap (l : Field) (s : State) : Host.Outcome State Fault Refusal :=
  .next (respond .ok 0 (zext64 (absolute l.toNat)) s)

end Sys2Proof.Machine
end

