-- ==== Sys2Proof/Machine/Dispatch.lean ====
section
/-! DEFINITION. One arm for each operation of the opcode map (spec/30_encoding.md R58). -/

namespace Sys2Proof.Machine

def exec (i : Instr) (s : State) : Host.Outcome State Fault Refusal :=
  match i with
  | .nop => Sys2Proof.Machine.execNop s
  | .cfg sub cnt node => Sys2Proof.Machine.execCfg sub cnt node s
  | .next => Sys2Proof.Machine.execNext s
  | .getbit sel index => Sys2Proof.Machine.execGetbit sel index s
  | .setbit sel index v => Sys2Proof.Machine.execSetbit sel index v s
  | .map l => Sys2Proof.Machine.execMap l s
  | .stack start len => Sys2Proof.Machine.execStack start len s
  | .encdec bits => Sys2Proof.Machine.execEncdec bits s
  | .decdec bits => Sys2Proof.Machine.execDecdec bits s
  | .getts => Sys2Proof.Machine.execGetts s
  | .getver => Sys2Proof.Machine.execGetver s
  | .getvar => Sys2Proof.Machine.execGetvar s
  | .getpay start len => Sys2Proof.Machine.execGetpay start len s
  | .rdreg number => Sys2Proof.Machine.execRdreg number s

end Sys2Proof.Machine
end

