-- ==== Sys2Proof/Machine/Step.lean ====
section
/-! DEFINITION. One step of the core: the transition table of `FSM` (spec/45_generator.md R126). A step in
IDLE is one rising edge. A step in BUSY stands for all of the `LATENCY(op)` edges up to the response,
which no rule counts (R12, R175; log entry 1). -/

namespace Sys2Proof.Machine

/-- The command in flight comes to its end (R51): a word that is no command is refused (R60, R134),
any other is executed. -/
def runSampled (s : State) : Host.Outcome State Fault Refusal :=
  match decode s.sampled.cmd with
  | .ok i => exec i s
  | .error _ => .next (refuse .illegalCommand s)

/-- One step: reset first (R150), then what `FSM` allows (R126, R138). -/
def step (s : State) : Host.Outcome State Fault Refusal :=
  if (inputsNow s).rst then .next (resetEdge (pastEdge s))
  else
    match s.regs.fsm with
    | .idle =>
      if (inputsNow s).cmdValid then .next (acceptCommand (inputsNow s).data (pastEdge s))
      else .next (quietEdge (pastEdge s))
    | .busy => runSampled (pastEdge s)
    | .fault => .next (quietEdge (pastEdge s))
    | .reserved => .fault .reservedFsm

/-- `s` with the word in flight, accepted and not yet answered, and no reset at the next step: the
very next step runs it (log entry 6). -/
def State.withFetchWord (s : State) (nbits w : Nat) : State :=
  { s with
    regs := { s.regs with fsm := .busy }
    sampled := { s.sampled with cmd := commandOfTableWord nbits w }
    inputs := clearNextReset s.inputs }

end Sys2Proof.Machine
end

