-- ==== Sys2Proof/Machine/Trace.lean ====
section
/-! DEFINITION. The trace syntax (spec/30_encoding.md R62): one line for a command with the inputs sampled
with it, and after `=>` its outcome. Numbers are written in decimal, buffers in hex, byte 0 first
(log entry 11). Nothing in the machine reads a trace. -/

namespace Sys2Proof.Machine

/-- The names of the codes (R59). -/
def Code.name : Code → String
  | .ok => "OK"
  | .formatError => "FORMAT_ERROR"
  | .configurationError => "CONFIGURATION_ERROR"
  | .entropyFailure => "ENTROPY_FAILURE"
  | .bitIndexOutOfRange => "BIT_INDEX_OUT_OF_RANGE"
  | .notConfigured => "NOT_CONFIGURED"
  | .illegalCommand => "ILLEGAL_COMMAND"

/-- The code with a given number; 7 to 15 are reserved (R59). -/
def codeOf (n : BitVec 4) : Option Code :=
  [Code.ok, .formatError, .configurationError, .entropyFailure, .bitIndexOutOfRange,
    .notConfigured, .illegalCommand].find? (fun c => c.bits = n)

def codeName (n : BitVec 4) : String :=
  match codeOf n with
  | some c => c.name
  | none => "RESERVED"

def hexDigit (d : Nat) : Char := "0123456789ABCDEF".toList.getD d '?'

/-- `v` in exactly `digits` hex digits, most significant first. -/
def hexChars : (digits v : Nat) → List Char
  | 0, _ => []
  | digits + 1, v => hexChars digits (v / 16) ++ [hexDigit (v % 16)]

/-- ` name=<decimal>`. -/
def decArg (name : String) (v : Nat) : String := name ++ "=" ++ toString v

/-- `name=<hex>` for a buffer of `digits / 2` bytes. -/
def hexArg (name : String) (digits v : Nat) : String :=
  name ++ "=" ++ String.ofList (hexChars digits v)

/-- The operand buffer of `GETBIT` and `SETBIT`. -/
def bufArg (sel : BufSel) (x : Sampled) : String :=
  match sel with
  | .opId => hexArg "id" 32 x.opId.toNat
  | .opSrc => hexArg "src" 16 x.opSrc.toNat

/-- The command part of a trace line (R62). -/
def commandText (i : Instr) (x : Sampled) : String :=
  match i with
  | .nop => "NOP"
  | .cfg sub cnt node => "CFG " ++ ", ".intercalate [decArg "sub" sub.toNat, decArg "cnt" cnt.toNat,
      decArg "node" node.toNat, decArg "nodeval" x.opSrc.toNat]
  | .next => "NEXT " ++ ", ".intercalate [decArg "sec" x.nowSec.toNat, decArg "nsec" x.nowNsec.toNat,
      hexArg "rnd" 32 x.rnd.toNat, decArg "rnd_ok" x.rndOk.toNat]
  | .getbit sel index => "GETBIT " ++ ", ".intercalate [bufArg sel x, decArg "i" index.toNat]
  | .setbit sel index v => "SETBIT " ++ ", ".intercalate [bufArg sel x, decArg "i" index.toNat,
      decArg "v" v.toNat]
  | .map l => "MAP " ++ decArg "l" l.toNat
  | .stack start len => "STACK " ++ ", ".intercalate [hexArg "id" 32 x.opId.toNat,
      decArg "start" start.toNat, decArg "len" len.toNat, hexArg "src" 16 x.opSrc.toNat]
  | .encdec bits => "ENCDEC " ++ ", ".intercalate [decArg "n" x.opSrc.toNat, decArg "bits" bits.toNat]
  | .decdec bits => "DECDEC " ++ ", ".intercalate [hexArg "v" 16 x.opSrc.toNat,
      decArg "bits" bits.toNat]
  | .getts => "GETTS " ++ hexArg "id" 32 x.opId.toNat
  | .getver => "GETVER " ++ hexArg "id" 32 x.opId.toNat
  | .getvar => "GETVAR " ++ hexArg "id" 32 x.opId.toNat
  | .getpay start len => "GETPAY " ++ ", ".intercalate [hexArg "id" 32 x.opId.toNat,
      decArg "start" start.toNat, decArg "len" len.toNat]
  | .rdreg number => "RDREG " ++ decArg "r" number.toNat

/-- The results an `OK` line shows (R53, R62). -/
def resultText (i : Instr) (r : Response) : String :=
  match i with
  | .nop => ""
  | .cfg _ _ _ => ""
  | .next => " " ++ hexArg "id" 32 r.id.toNat
  | .getbit _ _ => " " ++ decArg "bit" r.val.toNat
  | .setbit .opId _ _ => " " ++ hexArg "id" 32 r.id.toNat
  | .setbit .opSrc _ _ => " " ++ hexArg "src" 16 r.val.toNat
  | .map _ => " " ++ decArg "abs" r.val.toNat
  | .stack _ _ => " " ++ hexArg "id" 32 r.id.toNat ++ " " ++ decArg "next" r.val.toNat
  | .encdec _ => " " ++ hexArg "enc" 16 r.val.toNat
  | .decdec _ => " " ++ hexArg "num" 16 r.val.toNat
  | .getts => " " ++ decArg "ts" r.val.toNat
  | .getver => " " ++ decArg "ver" r.val.toNat
  | .getvar => " " ++ decArg "var" r.val.toNat
  | .getpay _ _ => " " ++ hexArg "field" 32 r.id.toNat
  | .rdreg _ => " " ++ hexArg "val" 16 r.val.toNat

/-- The outcome part of a trace line, read from the state the command ended in (R62). -/
def outcomeText (i : Instr) (t : State) : String :=
  match t.rsp with
  | some r => if r.status = Code.ok.bits then "OK" ++ resultText i r else codeName r.status
  | none => "FAULT " ++ codeName t.regs.cause ++ " " ++ decArg "finfo" t.regs.finfo.toNat

/-- A whole trace line. -/
def traceLine (i : Instr) (x : Sampled) (t : State) : String :=
  commandText i x ++ " => " ++ outcomeText i t

end Sys2Proof.Machine
end

