-- ==== Sys2Proof/Safety.lean ====
section
/-! DEFINITION. The invariants of the state (spec/10_state.md R29), in the terms the claims use, and which
outcomes count as safe: a recoverable status leaves the core usable, a fatal fault stops it in
`FAULT` (spec/60_exceptions.md R136, R140). -/

namespace Sys2Proof.Safety

open Sys2Proof.Machine

/-- R29 (a): a constructed generator holds a legal configuration. -/
abbrev LegalConfiguration (r : Regs) : Prop :=
  r.configured = true → r.cfgSubsecBits.toNat ≤ 64 ∧ r.cfgCounterBits.toNat ≤ 64
    ∧ r.cfgNodeBits.toNat ≤ 64
    ∧ r.cfgSubsecBits.toNat + r.cfgCounterBits.toNat + r.cfgNodeBits.toNat ≤ 86

/-- R29 (b): without a generator the configuration registers are 0. -/
abbrev UnconfiguredIsZero (r : Regs) : Prop :=
  r.configured = false → r.cfgSubsecBits = 0 ∧ r.cfgCounterBits = 0 ∧ r.cfgNodeBits = 0
    ∧ r.cfgNodeValue = 0

/-- R29 (c): the cursor stays within the payload. -/
abbrev CursorInPayload (r : Regs) : Prop := r.cursor.toNat ≤ 86

/-- R29 (d): `CAUSE` is not 0 exactly in `FAULT`. -/
abbrev CauseExactlyInFault (r : Regs) : Prop := r.cause ≠ 0 ↔ r.fsm = .fault

/-- R29 (e): a generator that has not been called holds no history. -/
abbrev NoHistoryBeforeFirstCall (r : Regs) : Prop :=
  r.prevValid = false → r.prevSubsec = 0 ∧ r.counter = 0 ∧ r.counterActive = false

/-- R29 (f): the recorded encoding fits the sub-second width. -/
abbrev PrevSubsecFitsWidth (r : Regs) : Prop :=
  r.prevValid = true → r.prevSubsec.toNat < 2 ^ r.cfgSubsecBits.toNat

/-- R29 (g): no tie, no count. -/
abbrev CounterZeroUnlessActive (r : Regs) : Prop := r.counterActive = false → r.counter = 0

/-- The reserved value of `FSM` is never entered (R12). -/
abbrev NeverReserved (r : Regs) : Prop := r.fsm ≠ .reserved

/-- The invariants of R29, with R12's. -/
abbrev Inv (r : Regs) : Prop :=
  LegalConfiguration r ∧ UnconfiguredIsZero r ∧ CursorInPayload r ∧ CauseExactlyInFault r
    ∧ NoHistoryBeforeFirstCall r ∧ PrevSubsecFitsWidth r ∧ CounterZeroUnlessActive r
    ∧ NeverReserved r

/-- The core can take a command or is at work on one: it has not stopped in `FAULT` (R140). -/
abbrev Usable (r : Regs) : Prop := r.fsm = .idle ∨ r.fsm = .busy

/-- `s` after a command was answered: the response, `FSM` back in IDLE, everything else as it was
(R51 (a), (b), R57). The numbers are the ports' own. -/
def answered (s : State) (status : BitVec 4) (id : Ident) (val : BitVec 64) : State :=
  { s with
    rsp := some { status := status, id := id, val := val }
    regs := { s.regs with fsm := .idle } }

/-- `s` after a fatal fault: no response, `CAUSE`, `FINFO` and `FSM` written, everything else as it
was (R51 (c), R136). -/
def stopped (s : State) (cause : BitVec 4) (finfo : BitVec 17) : State :=
  { s with
    rsp := none
    regs := { s.regs with fsm := .fault, cause := cause, finfo := finfo } }

/-- `FINFO` for index `i` of a 16-byte identifier buffer (R24). -/
def identifierFinfo (i : Nat) : BitVec 17 := BitVec.ofNat 17 i

/-- `FINFO` for index or weight `i` of an 8-byte source buffer (R24). -/
def sourceFinfo (i : Nat) : BitVec 17 := BitVec.ofNat 17 (65536 + i)

/-- Byte `j` of a 16-byte buffer (R31 (b)). -/
def identByte (id : Ident) (j : Nat) : Nat := id.toNat / 256 ^ (15 - j) % 256

/-- Byte `j` of an 8-byte buffer (R31 (b)). -/
def sourceByte (src : Source) (j : Nat) : Nat := src.toNat / 256 ^ (7 - j) % 256

/-- R60 (c), from the table of R53: a field the operation does not use is not 0. -/
def UnusedFieldNonzero (w : Command) : Prop :=
  ((w.extractLsb' 28 4).toNat ∉ [3, 4] ∧ w.extractLsb' 27 1 ≠ 0#1) ∨
  ((w.extractLsb' 28 4).toNat ∉ [1, 3, 4, 5, 6, 12, 13] ∧ w.extractLsb' 16 8 ≠ 0#8) ∨
  ((w.extractLsb' 28 4).toNat ∉ [1, 6, 7, 8, 12] ∧ w.extractLsb' 8 8 ≠ 0#8) ∨
  ((w.extractLsb' 28 4).toNat ∉ [1, 4] ∧ w.extractLsb' 0 8 ≠ 0#8) ∨
  ((w.extractLsb' 28 4).toNat = 4 ∧ w.extractLsb' 1 7 ≠ 0#7)

/-- An illegal command word: clauses (a) to (e) of R60. -/
def IllegalWord (w : Command) : Prop :=
  14 ≤ (w.extractLsb' 28 4).toNat ∨ w.extractLsb' 24 3 ≠ 0#3 ∨ UnusedFieldNonzero w ∨
  (((w.extractLsb' 28 4).toNat = 7 ∨ (w.extractLsb' 28 4).toNat = 8) ∧
    64 < (w.extractLsb' 8 8).toNat) ∨
  ((w.extractLsb' 28 4).toNat = 13 ∧ 7 < (w.extractLsb' 16 8).toNat)

/-- The unit-access operations and accessors: those that neither read nor write the generator's
registers (R58), with `NOP`. -/
def unitAccess : Instr → Bool
  | .nop => true
  | .cfg _ _ _ => false
  | .next => false
  | .getbit _ _ => true
  | .setbit _ _ _ => true
  | .map _ => true
  | .stack _ _ => true
  | .encdec _ => true
  | .decdec _ => true
  | .getts => true
  | .getver => true
  | .getvar => true
  | .getpay _ _ => true
  | .rdreg _ => false

/-- What the host drives to have one command answered: the offer, and one quiet edge. -/
def offered (x : Sampled) : List Inputs :=
  [{ rst := false, cmdValid := true, data := x },
   { rst := false, cmdValid := false, data := Sampled.reset }]

/-- One command as one step, "command in, sampled inputs in, (new state, response or fault) out"
(R51); a core that is not in IDLE accepts nothing (R138 (1)). -/
def commandStep (s : State) (x : Sampled) : State :=
  if s.regs.fsm = .idle then
    match decode x.cmd with
    | .ok i =>
      match exec i { s with regs := { s.regs with fsm := .busy }, sampled := x, rsp := none } with
      | .next t => t
      | .fault _ => s
      | .refused _ => s
    | .error _ => answered { s with sampled := x } 6 0 0
  else s

end Sys2Proof.Safety
end

