-- ==== Sys2Proof/WellFormed.lean ====
section
/-! DEFINITION. Operand legality beyond a row's match and mask (spec/30_encoding.md R60 (d), (e)).
A decoded command whose operands fail this check is illegal: the operation itself answers
`ILLEGAL_COMMAND` (R87, R88, R125). Over-wide `CFG` operands are well formed: they are refused as
`CONFIGURATION_ERROR` (R104), and out-of-range indices are faults (R35). -/

namespace Sys2Proof

def Instr.wellFormed : Instr → Bool
  | .nop => true
  | .cfg _ _ _ => true
  | .next => true
  | .getbit _ _ => true
  | .setbit _ _ _ => true
  | .map _ => true
  | .stack _ _ => true
  | .encdec bits => decide (bits.toNat ≤ Config.wMax)
  | .decdec bits => decide (bits.toNat ≤ Config.wMax)
  | .getts => true
  | .getver => true
  | .getvar => true
  | .getpay _ _ => true
  | .rdreg number => decide (number.toNat ≤ 7)

end Sys2Proof
end

