-- ==== Sys2Proof/Certificates/Slice0/Obligations.lean ====
section
/-! DEFINITION. The statements for the provers. `answered` and `stopped` (Safety.lean) write out a whole
next state, so an equation with one of them is a result, a completion and a frame at once. -/

open Sys2Proof Sys2Proof.Machine Sys2Proof.Safety

/-! ### Encoding -/

/-- spec/30_encoding.md R52, R53, R58: no bit of an operand is lost. -/
def Obligations.DecodeOfEncodeIsTheInstruction : Prop :=
  ∀ i : Instr, decode (encode i) = .ok i

/-- R52, R60: a word that decodes has one spelling, itself. -/
def Obligations.EncodeOfDecodedWordIsTheWord : Prop :=
  ∀ (w : Command) (i : Instr), decode w = .ok i → encode i = w

/-- R58: `w and mask = match` exactly when the decoder gives an operation of that row. -/
def Obligations.DecoderMatchesOpcodeTable : Prop :=
  ∀ row ∈ opcodeTable, ∀ w : Command,
    w &&& row.mask = row.value ↔ ∃ i : Instr, decode w = .ok i ∧ i.opcode = row.op

/-- Words written out from R52 and R58, one of each family. -/
def Obligations.WrittenOutWordsDecode : Prop :=
  decode 0x00000000 = .ok .nop ∧ decode 0x100C0806 = .ok (.cfg 12 8 6) ∧
  decode 0x383F0000 = .ok (.getbit .opSrc 63) ∧ decode 0x40300001 = .ok (.setbit .opId 48 true) ∧
  decode 0x500C0000 = .ok (.map 12) ∧ decode 0x600A0400 = .ok (.stack 10 4) ∧
  decode 0x70001000 = .ok (.encdec 16) ∧ decode 0xC0124400 = .ok (.getpay 18 68)

/-- R134, with R60's clauses: a busy core answers status 6, writes no register and is back in IDLE
exactly for the illegal words, whatever the data ports hold. -/
def Obligations.IllegalWordsAreRefused : Prop :=
  ∀ s : State, s.regs.fsm = .busy → (inputsNow s).rst = false →
    (IllegalWord s.sampled.cmd ↔
      step s = .next (answered { s with inputs := s.inputs.tail } 6 0 0))

/-! ### The step -/

/-- R51, R102, R126: a step that ends a command is the meaning of the decoded word. -/
def Obligations.StepRunsDecodedInstruction : Prop :=
  ∀ (s : State) (i : Instr), s.regs.fsm = .busy → (inputsNow s).rst = false →
    decode s.sampled.cmd = .ok i → step s = exec i { s with inputs := s.inputs.tail }

/-- A word placed in flight is what the very next step runs (the model's own convention, log
entry 6). -/
def Obligations.PlacedWordRunsNext : Prop :=
  ∀ (s : State) (nbits w : Nat) (i : Instr), decodeTableWord nbits w = some i →
    step (s.withFetchWord nbits w) =
      exec i { s.withFetchWord nbits w with inputs := s.inputs.tail }

/-- R51: acceptance samples all the ports at once and sets BUSY; nothing else changes but the
one-cycle response. -/
def Obligations.AcceptanceSamplesThePorts : Prop :=
  ∀ (s : State) (p : Inputs) (rest : List Inputs), s.regs.fsm = .idle → s.inputs = p :: rest →
    p.rst = false → p.cmdValid = true →
    step s = .next { s with regs := { s.regs with fsm := .busy }, sampled := p.data, rsp := none,
                            inputs := rest }

/-- R41, R51: a command runs on what was sampled at its acceptance, whatever the ports carry
afterwards. -/
def Obligations.CommandRunsOnSampledInputs : Prop :=
  ∀ (s : State) (p q : Inputs) (rest : List Inputs) (i : Instr), s.regs.fsm = .idle →
    s.inputs = p :: q :: rest → p.rst = false → p.cmdValid = true → q.rst = false →
    decode p.data.cmd = .ok i →
    core.run 2 s = exec i { s with regs := { s.regs with fsm := .busy }, sampled := p.data,
                                   rsp := none, inputs := rest }

/-- R42, R51: a run over offered commands is the fold of the one-command step, in the order
offered; after a fatal fault nothing more is accepted. The schedule of `offered`, one edge that offers
and one quiet edge for each command, is the model's own: the host's script is log entry 2, one step in
BUSY for the whole latency is log entry 1. -/
def Obligations.RunIsFoldOfCommands : Prop :=
  ∀ (xs : List Sampled) (s : State), s.regs.fsm = .idle → s.inputs = xs.flatMap offered →
    core.run (2 * xs.length) s = .next (xs.foldl commandStep { s with inputs := [] })

/-- R150, R152, with the values of R28: one reset edge, from every state. -/
def Obligations.ResetEdgeFromEveryState : Prop :=
  ∀ s : State, (inputsNow s).rst = true →
    ∃ t : State, step s = .next t ∧ t.rsp = none ∧ t.inputs = s.inputs.tail ∧
      t.regs = { fsm := .idle, configured := false, cfgSubsecBits := 0, cfgCounterBits := 0,
                 cfgNodeBits := 0, cfgNodeValue := 0, prevSubsec := 0, prevValid := false,
                 counter := 0, counterActive := false, cursor := 0, cause := 0, finfo := 0 } ∧
      t.cmdReady = true

/-- R28, R151: the state after reset and the outputs it drives. -/
def Obligations.ResetStateHoldsStatedValues : Prop :=
  State.reset.regs = { fsm := .idle, configured := false, cfgSubsecBits := 0, cfgCounterBits := 0,
                       cfgNodeBits := 0, cfgNodeValue := 0, prevSubsec := 0, prevValid := false,
                       counter := 0, counterActive := false, cursor := 0, cause := 0, finfo := 0 } ∧
  State.reset.cmdReady = true ∧ State.reset.rspValid = false ∧ State.reset.faultOut = false ∧
  State.reset.causeOut = 0 ∧ State.reset.finfoOut = 0

/-- R126 with R102: every step, row by row of the transition table, and what it may write. -/
def Obligations.EveryStepFollowsTransitionTable : Prop :=
  ∀ s t : State, step s = .next t →
    ((inputsNow s).rst = true → t.regs = Regs.reset ∧ t.rsp = none) ∧
    ((inputsNow s).rst = false →
      (s.regs.fsm = .idle → (inputsNow s).cmdValid = false →
        t.regs = s.regs ∧ t.sampled = s.sampled ∧ t.rsp = none) ∧
      (s.regs.fsm = .idle → (inputsNow s).cmdValid = true →
        t.regs = { s.regs with fsm := .busy } ∧ t.sampled = (inputsNow s).data ∧ t.rsp = none) ∧
      (s.regs.fsm = .busy →
        (∃ r, t.rsp = some r ∧ t.regs.fsm = .idle ∧
          (r.status ≠ 0 → t.regs = { s.regs with fsm := .idle })) ∨
        (t.rsp = none ∧
          t.regs = { s.regs with fsm := .fault, cause := t.regs.cause, finfo := t.regs.finfo })) ∧
      (s.regs.fsm = .fault → t.regs = s.regs ∧ t.rsp = none ∧ t.cmdReady = false))

/-- R51, R117 (e), R175: an accepted command always ends, in a response or in FAULT. -/
def Obligations.EveryAcceptedCommandEnds : Prop :=
  ∀ s : State, s.regs.fsm = .busy → (inputsNow s).rst = false →
    ∃ t : State, step s = .next t ∧ t.inputs = s.inputs.tail ∧
      ((t.rspValid = true ∧ t.cmdReady = true) ∨ (t.rspValid = false ∧ t.faultOut = true))

/-- R57, R59: a response carries OK or a recoverable code, with zero data unless OK. -/
def Obligations.ResponsesCarryRecoverableCodes : Prop :=
  ∀ (s t : State) (r : Response), step s = .next t → t.rsp = some r →
    (r.status = 0 ∨ r.status = 2 ∨ r.status = 5 ∨ r.status = 6) ∧
    (r.status ≠ 0 → r.id = 0 ∧ r.val = 0)

/-- R136, R137, R24, R64: what a step into FAULT leaves on the registers and the outputs. -/
def Obligations.FaultEntryRecordsTheCause : Prop :=
  ∀ s t : State, step s = .next t → s.regs.fsm = .busy → t.faultOut = true →
    t.rspValid = false ∧ t.cmdReady = false ∧
    t.regs = { s.regs with fsm := .fault, cause := t.causeOut, finfo := t.finfoOut } ∧
    ((t.causeOut = 3 ∧ t.finfoOut = 0) ∨
     (t.causeOut = 4 ∧ ∃ i : Nat,
       (128 ≤ i ∧ i ≤ 297 ∧ t.finfoOut = identifierFinfo i) ∨
       (64 ≤ i ∧ i ≤ 255 ∧ t.finfoOut = sourceFinfo i)))

/-- R126: in FAULT no run without reset changes a register or gives a response. That FAULT has a
step at all, so that the run goes on, is the model's choice (log entry 10): R126 lists one that changes
nothing, R139 says to treat FAULT as a state with no step. -/
def Obligations.FaultIsStickyUntilReset : Prop :=
  ∀ (k : Nat) (s : State), s.regs.fsm = .fault → (∀ p ∈ s.inputs, p.rst = false) →
    ∃ t : State, core.run (k + 1) s = .next t ∧ t.regs = s.regs ∧ t.rsp = none

/-! ### Invariants and whole-machine rules -/

/-- R29 at reset. -/
def Obligations.InvariantHoldsAtReset : Prop := Inv State.reset.regs

/-- R29: every step keeps the invariants of the state, with R12's "never entered". -/
def Obligations.EveryStepKeepsTheInvariant : Prop :=
  ∀ s t : State, Inv s.regs → step s = .next t → Inv t.regs

/-- R58, R102: `NOP`, the unit-access operations and `RDREG` answer and write no register, or fault. -/
def Obligations.UnitAccessWritesNoRegister : Prop :=
  ∀ (s : State) (i : Instr), (unitAccess i = true ∨ ∃ n, i = .rdreg n) →
    ∃ t : State, exec i s = .next t ∧ t.sampled = s.sampled ∧ t.inputs = s.inputs ∧
      (t.regs = { s.regs with fsm := .idle } ∨
       t.regs = { s.regs with fsm := .fault, cause := 4, finfo := t.regs.finfo })

/-- R58: none of the unit-access operations reads generator state. -/
def Obligations.UnitAccessReadsNoRegister : Prop :=
  ∀ (i : Instr) (s u : State), unitAccess i = true → s.sampled = u.sampled →
    ∃ t v : State, exec i s = .next t ∧ exec i u = .next v ∧ t.rsp = v.rsp ∧
      t.regs.fsm = v.regs.fsm ∧
      (t.regs.fsm = .fault → t.regs.cause = v.regs.cause ∧ t.regs.finfo = v.regs.finfo)

/-- R13 to R17: only a successful `CFG` and reset write the configuration registers. -/
def Obligations.OnlyCfgAndResetWriteConfiguration : Prop :=
  ∀ s t : State, step s = .next t → (inputsNow s).rst = false →
    ¬ (t.regs.configured = s.regs.configured ∧ t.regs.cfgSubsecBits = s.regs.cfgSubsecBits ∧
       t.regs.cfgCounterBits = s.regs.cfgCounterBits ∧ t.regs.cfgNodeBits = s.regs.cfgNodeBits ∧
       t.regs.cfgNodeValue = s.regs.cfgNodeValue) →
    s.regs.fsm = .busy ∧ ∃ sub cnt node : Field, decode s.sampled.cmd = .ok (.cfg sub cnt node) ∧
      sub.toNat ≤ 64 ∧ cnt.toNat ≤ 64 ∧ node.toNat ≤ 64 ∧
      sub.toNat + cnt.toNat + node.toNat ≤ 86

/-! ### Bit primitives and index mapping -/

/-- R101: `NOP` is the zero word, answers OK and changes nothing, configured or not; any other word
with `op` = 0 is an illegal command. -/
def Obligations.NopAnswersOk : Prop :=
  (∀ s : State, exec .nop s = .next (answered s 0 0 0)) ∧
  encode .nop = 0x00000000 ∧ decode 0x00000000 = .ok .nop ∧
  ∀ s : State, s.regs.fsm = .busy → (inputsNow s).rst = false →
    s.sampled.cmd.extractLsb' 28 4 = 0#4 → s.sampled.cmd ≠ 0 →
    step s = .next (answered { s with inputs := s.inputs.tail } 6 0 0)

/-- R70, R33, R35: `GETBIT` by the byte formula, in range and out of range, both buffers. -/
def Obligations.GetbitReadsOneBit : Prop :=
  ∀ (s : State) (index : Field),
    (index.toNat < 128 → exec (.getbit .opId index) s = .next (answered s 0 0 (BitVec.ofNat 64
      (identByte s.sampled.opId (index.toNat / 8) / 2 ^ (7 - index.toNat % 8) % 2)))) ∧
    (128 ≤ index.toNat → exec (.getbit .opId index) s =
      .next (stopped s 4 (identifierFinfo index.toNat))) ∧
    (index.toNat < 64 → exec (.getbit .opSrc index) s = .next (answered s 0 0 (BitVec.ofNat 64
      (sourceByte s.sampled.opSrc (index.toNat / 8) / 2 ^ (7 - index.toNat % 8) % 2)))) ∧
    (64 ≤ index.toNat → exec (.getbit .opSrc index) s =
      .next (stopped s 4 (sourceFinfo index.toNat)))

/-- R71, R34, R35: `SETBIT` replaces the one bit, in range and out of range, both buffers. -/
def Obligations.SetbitReplacesOneBit : Prop :=
  ∀ (s : State) (index : Field) (v : Bool),
    (index.toNat < 128 → ∃ id : Ident, exec (.setbit .opId index v) s = .next (answered s 0 id 0) ∧
      ∀ j, id.getMsbD j = if j = index.toNat then v else s.sampled.opId.getMsbD j) ∧
    (128 ≤ index.toNat → exec (.setbit .opId index v) s =
      .next (stopped s 4 (identifierFinfo index.toNat))) ∧
    (index.toNat < 64 → ∃ src : Source, exec (.setbit .opSrc index v) s =
        .next (answered s 0 0 src) ∧
      ∀ j, src.getMsbD j = if j = index.toNat then v else s.sampled.opSrc.getMsbD j) ∧
    (64 ≤ index.toNat → exec (.setbit .opSrc index v) s =
      .next (stopped s 4 (sourceFinfo index.toNat)))

/-- R72: the laws of `getBit` and `setBit`, for both buffer sizes. -/
def Obligations.BitPrimitiveLaws : Prop :=
  ∀ (L : Nat) (kind : BufKind) (buf : BitVec (8 * L)) (i j : Nat) (v : Bool), (L = 16 ∨ L = 8) →
    i < 8 * L → j < 8 * L →
    ∃ buf' : BitVec (8 * L), setBit kind buf i v = .ok buf' ∧ getBit kind buf' i = .ok v ∧
      (j ≠ i → getBit kind buf' j = getBit kind buf j) ∧
      (getBit kind buf i = .ok v → buf' = buf) ∧
      (v = true → buf' = buf ||| BitVec.ofNat (8 * L) (2 ^ (8 * L - 1 - i))) ∧
      (v = false → buf' = buf &&& ~~~ BitVec.ofNat (8 * L) (2 ^ (8 * L - 1 - i)))

/-- R75, R37: `MAP` returns the number and never faults. -/
def Obligations.MapAnswersAbsolute : Prop :=
  ∀ (s : State) (l : Field), exec (.map l) s = .next (answered s 0 0 (BitVec.ofNat 64
    (36 + l.toNat + (if l.toNat > 11 then 4 else 0) + (if l.toNat > 23 then 2 else 0))))

/-- R38: the table of `absolute` by its ranges, strictly increasing, a bijection from the logical
offsets 0 to 85 onto the payload positions, its inverse, and what lies beyond. -/
def Obligations.AbsoluteIsThePayloadBijection : Prop :=
  (∀ l, l ≤ 11 → absolute l = l + 36) ∧ (∀ l, 12 ≤ l → l ≤ 23 → absolute l = l + 40) ∧
  (∀ l, 24 ≤ l → absolute l = l + 42) ∧ (∀ l m, l < m → absolute l < absolute m) ∧
  (∀ l, l < 86 → absolute l ≤ 127) ∧ (∀ l, 86 ≤ l → 128 ≤ absolute l) ∧
  (∀ a, ((36 ≤ a ∧ a ≤ 47) ∨ (52 ≤ a ∧ a ≤ 63) ∨ (66 ≤ a ∧ a ≤ 127)) ↔
    ∃ l, l < 86 ∧ absolute l = a) ∧
  (∀ a, 36 ≤ a → a ≤ 47 → absolute (a - 36) = a) ∧
  (∀ a, 52 ≤ a → a ≤ 63 → absolute (a - 40) = a) ∧
  (∀ a, 66 ≤ a → a ≤ 127 → absolute (a - 42) = a)

/-! ### Field stacking and accessors -/

/-- R78, R79: an in-range `STACK` writes source weight `k` to logical slot `start + k`, nothing else. -/
def Obligations.StackWritesReversedField : Prop :=
  ∀ (s : State) (start len : Field),
    (len.toNat = 0 ∨ (len.toNat ≤ 64 ∧ start.toNat + len.toNat ≤ 86)) →
    ∃ id : Ident, exec (.stack start len) s =
        .next (answered s 0 id (BitVec.ofNat 64 (start.toNat + len.toNat))) ∧
      (∀ k, k < len.toNat →
        id.getMsbD (absolute (start.toNat + k)) = s.sampled.opSrc.getLsbD k) ∧
      (∀ j, (∀ k, k < len.toNat → j ≠ absolute (start.toNat + k)) →
        id.getMsbD j = s.sampled.opId.getMsbD j)

/-- R79, R137: where `STACK` faults first, and what it records. -/
def Obligations.StackFaultsAtFirstBadAccess : Prop :=
  ∀ (s : State) (start len : Field), 1 ≤ len.toNat →
    (start.toNat ≤ 86 → 86 - start.toNat < min len.toNat 64 →
      exec (.stack start len) s = .next (stopped s 4 (identifierFinfo 128))) ∧
    (86 < start.toNat →
      exec (.stack start len) s = .next (stopped s 4 (identifierFinfo (start.toNat + 42)))) ∧
    (64 < len.toNat → start.toNat + 64 ≤ 86 →
      exec (.stack start len) s = .next (stopped s 4 (sourceFinfo 64)))

/-- R96: `GETPAY` gives the payload bits in identifier order, right-aligned, or faults. -/
def Obligations.GetpayReadsPayload : Prop :=
  ∀ (s : State) (start len : Field),
    ((len.toNat = 0 ∨ start.toNat + len.toNat ≤ 86) →
      ∃ f : Ident, exec (.getpay start len) s = .next (answered s 0 f 0) ∧
        (∀ k, k < len.toNat → f.getLsbD (len.toNat - 1 - k) =
          s.sampled.opId.getMsbD (absolute (start.toNat + k))) ∧
        (∀ j, len.toNat ≤ j → f.getLsbD j = false)) ∧
    (1 ≤ len.toNat → 86 < start.toNat + len.toNat →
      exec (.getpay start len) s = .next (stopped s 4
        (identifierFinfo (if start.toNat ≤ 86 then 128 else start.toNat + 42))))

/-- R80, R98: reading a stacked field back gives the bit reversal of the source's low bits. -/
def Obligations.GetpayOfStackIsReversal : Prop :=
  ∀ (s : State) (start len : Field), len.toNat ≤ 64 → start.toNat + len.toNat ≤ 86 →
    ∃ (t : State) (r : Response), exec (.stack start len) s = .next t ∧ t.rsp = some r ∧
      ∀ u : State, u.sampled.opId = r.id →
        ∃ f : Ident, exec (.getpay start len) u = .next (answered u 0 f 0) ∧
          (∀ k, k < len.toNat → f.getLsbD (len.toNat - 1 - k) = s.sampled.opSrc.getLsbD k) ∧
          (∀ j, len.toNat ≤ j → f.getLsbD j = false)

/-- R93: `GETTS` is `int(op_id) >> 92`. -/
def Obligations.GettsReadsTopBits : Prop :=
  ∀ s : State, exec .getts s =
    .next (answered s 0 0 (BitVec.ofNat 64 (s.sampled.opId.toNat / 2 ^ 92)))

/-- R94, R95: `GETVER` is the high nibble of byte 6, `GETVAR` the two high bits of byte 8. -/
def Obligations.GetverGetvarReadMarkers : Prop :=
  ∀ s : State,
    exec .getver s = .next (answered s 0 0 (BitVec.ofNat 64 (identByte s.sampled.opId 6 / 16))) ∧
    exec .getvar s = .next (answered s 0 0 (BitVec.ofNat 64 (identByte s.sampled.opId 8 / 64)))

/-! ### Sub-second codec -/

/-- R83, R84, R87: `ENCDEC` is the exact quotient by the digit count; widths above 64 are illegal. -/
def Obligations.EncdecIsTheExactQuotient : Prop :=
  ∀ (s : State) (bits : Field) (d : Nat),
    (bits.toNat ≤ 64 → ((s.sampled.opSrc.toNat ≤ 9 ∧ d = 1) ∨
        (1 ≤ d ∧ 10 ^ (d - 1) ≤ s.sampled.opSrc.toNat ∧ s.sampled.opSrc.toNat < 10 ^ d)) →
      ∃ e : BitVec 64, exec (.encdec bits) s = .next (answered s 0 0 e) ∧
        e.toNat = s.sampled.opSrc.toNat * 2 ^ bits.toNat / 10 ^ d) ∧
    (64 < bits.toNat → exec (.encdec bits) s = .next (answered s 6 0 0))

/-- R89: the encoding is the truncated fraction, below `2^b`, and never in the gap below a tenth. -/
def Obligations.EncodingIsTheTruncatedFraction : Prop :=
  ∀ n b : Nat,
    encodeDecimal n b < 2 ^ b ∧ n < 10 ^ digits10 n ∧
    (1 ≤ n → 2 ^ b / 10 ≤ encodeDecimal n b ∧ (1 / 10 : ℚ) ≤ (n : ℚ) / 10 ^ digits10 n) ∧
    (n : ℚ) / 10 ^ digits10 n < 1 ∧
    (encodeDecimal n b : ℚ) / 2 ^ b ≤ (n : ℚ) / 10 ^ digits10 n ∧
    (n : ℚ) / 10 ^ digits10 n < ((encodeDecimal n b : ℚ) + 1) / 2 ^ b

/-- R91: monotone within a digit count, a drop across the boundary, equal for digit strings that
differ by trailing zeros. -/
def Obligations.EncodingOrderFollowsDigitStrings : Prop :=
  (∀ n m b : Nat, n ≤ m → digits10 n = digits10 m → encodeDecimal n b ≤ encodeDecimal m b) ∧
  (∀ n k b : Nat, 1 ≤ n → encodeDecimal (n * 10 ^ k) b = encodeDecimal n b) ∧
  encodeDecimal 99999999 8 = 0xFF ∧ encodeDecimal 100000000 8 = 0x19

/-- R90, R86: for nine-digit counts the decoded value is within `1/2^b` of the true fraction of a
second; for every count within `1/2^b` of its digit-count fraction. -/
def Obligations.RoundTripLosesLessThanOneStep : Prop :=
  (∀ n b : Nat, 0 ≤ (n : ℚ) / 10 ^ digits10 n - (decodeDecimal (encodeDecimal n b) b).value ∧
    (n : ℚ) / 10 ^ digits10 n - (decodeDecimal (encodeDecimal n b) b).value < 1 / 2 ^ b) ∧
  (∀ x b : Nat, 100000000 ≤ x → x ≤ 999999999 →
    0 ≤ (x : ℚ) / 10 ^ 9 - (decodeDecimal (encodeDecimal x b) b).value ∧
    (x : ℚ) / 10 ^ 9 - (decodeDecimal (encodeDecimal x b) b).value < 1 / 2 ^ b)

/-- R88: `DECDEC` answers the numerator; widths above 64 are illegal. -/
def Obligations.DecdecAnswersTheNumerator : Prop :=
  ∀ (s : State) (bits : Field),
    (bits.toNat ≤ 64 → exec (.decdec bits) s = .next (answered s 0 0 s.sampled.opSrc)) ∧
    (64 < bits.toNat → exec (.decdec bits) s = .next (answered s 6 0 0))

/-! ### Generator -/

/-- R103, R104: a legal `CFG` loads the configuration and starts a fresh generator; any other is
refused and changes nothing. -/
def Obligations.CfgConstructsOrRefuses : Prop :=
  ∀ (s : State) (sub cnt node : Field),
    (sub.toNat ≤ 64 → cnt.toNat ≤ 64 → node.toNat ≤ 64 →
        sub.toNat + cnt.toNat + node.toNat ≤ 86 →
      ∃ r : Regs, exec (.cfg sub cnt node) s = .next (answered { s with regs := r } 0 0 0) ∧
        r = { s.regs with
          cfgSubsecBits := r.cfgSubsecBits, cfgCounterBits := r.cfgCounterBits,
          cfgNodeBits := r.cfgNodeBits, cfgNodeValue := s.sampled.opSrc, configured := true,
          prevSubsec := 0, prevValid := false, counter := 0, counterActive := false,
          cursor := 0 } ∧
        r.cfgSubsecBits.toNat = sub.toNat ∧ r.cfgCounterBits.toNat = cnt.toNat ∧
        r.cfgNodeBits.toNat = node.toNat) ∧
    (64 < sub.toNat ∨ 64 < cnt.toNat ∨ 64 < node.toNat ∨
        86 < sub.toNat + cnt.toNat + node.toNat →
      exec (.cfg sub cnt node) s = .next (answered s 2 0 0))

/-- R125, R26, R25: every register number. -/
def Obligations.RdregReadsNumberedRegisters : Prop :=
  ∀ s : State,
    exec (.rdreg 0) s = .next (answered s 0 0 (BitVec.ofNat 64 s.regs.cfgSubsecBits.toNat)) ∧
    exec (.rdreg 1) s = .next (answered s 0 0 (BitVec.ofNat 64 s.regs.cfgCounterBits.toNat)) ∧
    exec (.rdreg 2) s = .next (answered s 0 0 (BitVec.ofNat 64 s.regs.cfgNodeBits.toNat)) ∧
    exec (.rdreg 3) s = .next (answered s 0 0 s.regs.cfgNodeValue) ∧
    exec (.rdreg 4) s = .next (answered s 0 0 s.regs.prevSubsec) ∧
    exec (.rdreg 5) s = .next (answered s 0 0 s.regs.counter) ∧
    exec (.rdreg 6) s = .next (answered s 0 0 (BitVec.ofNat 64 s.regs.cursor.toNat)) ∧
    exec (.rdreg 7) s = .next (answered s 0 0 (BitVec.ofNat 64
      (s.regs.configured.toNat + 2 * s.regs.prevValid.toNat + 4 * s.regs.counterActive.toNat
        + 16 * s.regs.cause.toNat))) ∧
    ∀ number : Field, 7 < number.toNat → exec (.rdreg number) s = .next (answered s 6 0 0)

/-- R105: the word of `NEXT` and what it checks before any phase, in order: first the
configuration, then the entropy, whatever the rest of the state. -/
def Obligations.NextChecksItsPreconditions : Prop :=
  encode .next = 0x20000000 ∧ decode 0x20000000 = .ok .next ∧
  ∀ s : State,
    (s.regs.configured = false → exec .next s = .next (answered s 5 0 0)) ∧
    (s.regs.configured = true → s.sampled.rndOk = false → exec .next s = .next (stopped s 3 0))

/-- R115, R116, R109: the identifier bit by bit, and every register a completed `NEXT` writes. -/
def Obligations.NextAssemblesTheIdentifier : Prop :=
  ∀ s : State, s.regs.configured = true → LegalConfiguration s.regs → s.sampled.rndOk = true →
    let r := s.regs
    let x := s.sampled
    let enc : BitVec 64 :=
      BitVec.ofNat 64 (encodeDecimal x.nowNsec.toNat r.cfgSubsecBits.toNat)
    let active : Bool := r.prevValid && decide (enc = r.prevSubsec)
    let ctr : BitVec 64 := if active then r.counter + 1 else 0
    let c0 := r.cfgSubsecBits.toNat
    let c1 := c0 + (if active then r.cfgCounterBits.toNat else 0)
    let c2 := c1 + r.cfgNodeBits.toNat
    ∃ id : Ident,
      exec .next s = .next (answered { s with regs := { r with
        counter := ctr, counterActive := active, prevSubsec := enc, prevValid := true,
        cursor := BitVec.ofNat 8 c2 } } 0 id 0) ∧
      c2 ≤ 86 ∧
      (∀ j, j < 36 → id.getMsbD j = x.nowSec.getLsbD (35 - j)) ∧
      (∀ k, k < c0 → id.getMsbD (absolute k) = enc.getLsbD k) ∧
      (∀ k, c0 + k < c1 → id.getMsbD (absolute (c0 + k)) = ctr.getLsbD k) ∧
      (∀ k, c1 + k < c2 → id.getMsbD (absolute (c1 + k)) = r.cfgNodeValue.getLsbD k) ∧
      (∀ l, c2 ≤ l → l < 86 → id.getMsbD (absolute l) = x.rnd.getMsbD (absolute l)) ∧
      id.getMsbD 48 = false ∧ id.getMsbD 49 = true ∧ id.getMsbD 50 = true ∧
      id.getMsbD 51 = true ∧ id.getMsbD 64 = true ∧ id.getMsbD 65 = false

/-- R117 (a), (b), R97: the accessors read back version 7, variant 2 and `now_sec mod 2^36`. -/
def Obligations.IdentifierReadsBack : Prop :=
  ∀ (s t u : State) (r : Response), exec .next s = .next t → t.rsp = some r → r.status = 0 →
    u.sampled.opId = r.id →
    exec .getver u = .next (answered u 0 0 7) ∧ exec .getvar u = .next (answered u 0 0 2) ∧
    exec .getts u = .next (answered u 0 0 (BitVec.ofNat 64 (s.sampled.nowSec.toNat % 2 ^ 36)))

/-- R160: identifiers of different timestamps compare in timestamp order, whatever else differs. -/
def Obligations.TimestampsOrderIdentifiers : Prop :=
  ∀ (s u t v : State) (r q : Response), exec .next s = .next t → t.rsp = some r → r.status = 0 →
    exec .next u = .next v → v.rsp = some q → q.status = 0 →
    s.sampled.nowSec.toNat % 2 ^ 36 < u.sampled.nowSec.toNat % 2 ^ 36 → r.id.toNat < q.id.toNat

/-- R109, R117 (c), R165: consecutive calls with equal encodings count up by one, whatever their
whole seconds. -/
def Obligations.ConsecutiveTiesCountUp : Prop :=
  ∀ (s t u : State) (r : Response), s.regs.configured = true → LegalConfiguration s.regs →
    exec .next s = .next t → t.rsp = some r → r.status = 0 →
    u.regs = { t.regs with fsm := .busy } → u.sampled.rndOk = true →
    encodeDecimal u.sampled.nowNsec.toNat s.regs.cfgSubsecBits.toNat =
      encodeDecimal s.sampled.nowNsec.toNat s.regs.cfgSubsecBits.toNat →
    ∃ (v : State) (q : Response), exec .next u = .next v ∧ v.rsp = some q ∧ q.status = 0 ∧
      v.regs.counterActive = true ∧ v.regs.counter = t.regs.counter + 1

/-- R109, R118 (a), R45: the `NEXT` after a successful `CFG` is never a tie. -/
def Obligations.FirstCallIsNeverATie : Prop :=
  ∀ (s t u : State) (r : Response) (sub cnt node : Field),
    exec (.cfg sub cnt node) s = .next t → t.rsp = some r → r.status = 0 →
    u.regs = { t.regs with fsm := .busy } → u.sampled.rndOk = true →
    ∃ (v : State) (q : Response), exec .next u = .next v ∧ v.rsp = some q ∧ q.status = 0 ∧
      v.regs.counterActive = false ∧ v.regs.counter = 0 ∧ v.regs.prevValid = true ∧
      v.regs.cursor.toNat = sub.toNat + node.toNat

/-- R118 (b), R108: without a sub-second width every call but the first is a tie. -/
def Obligations.WithoutSubsecondWidthLaterCallsTie : Prop :=
  ∀ s : State, Inv s.regs → s.regs.configured = true → s.sampled.rndOk = true →
    s.regs.cfgSubsecBits = 0 → s.regs.prevValid = true →
    ∃ (t : State) (r : Response), exec .next s = .next t ∧ t.rsp = some r ∧ r.status = 0 ∧
      t.regs.counterActive = true ∧ t.regs.counter = s.regs.counter + 1 ∧
      t.regs.cursor.toNat = s.regs.cfgCounterBits.toNat + s.regs.cfgNodeBits.toNat

/-- R112, R116, R107: `NEXT` depends on `now_sec[35:0]`, `now_nsec`, `rnd_ok` and the random bits at
the filled positions alone. -/
def Obligations.NextDependsOnNothingElse : Prop :=
  ∀ s u t : State, exec .next s = .next t → u.regs = s.regs →
    u.sampled.nowSec.toNat % 2 ^ 36 = s.sampled.nowSec.toNat % 2 ^ 36 →
    u.sampled.nowNsec = s.sampled.nowNsec → u.sampled.rndOk = s.sampled.rndOk →
    (∀ l, t.regs.cursor.toNat ≤ l → l < 86 →
      u.sampled.rnd.getMsbD (absolute l) = s.sampled.rnd.getMsbD (absolute l)) →
    ∃ v : State, exec .next u = .next v ∧ v.rsp = t.rsp ∧ v.regs = t.regs

/-- R161: with a counter width of 2 or more, of the tied identifiers with counters 1 and 2 and equal
timestamps the later compares below the earlier, whatever the random bits. -/
def Obligations.LaterTiedIdentifierComparesBelow : Prop :=
  ∀ s : State, s.regs.configured = true → LegalConfiguration s.regs → s.sampled.rndOk = true →
    2 ≤ s.regs.cfgCounterBits.toNat → s.regs.prevValid = true → s.regs.counter = 0 →
    s.regs.prevSubsec =
      BitVec.ofNat 64 (encodeDecimal s.sampled.nowNsec.toNat s.regs.cfgSubsecBits.toNat) →
    ∃ (t : State) (r : Response), exec .next s = .next t ∧ t.rsp = some r ∧ t.regs.counter = 1 ∧
      ∀ u : State, u.regs = { t.regs with fsm := .busy } → u.sampled.rndOk = true →
        u.sampled.nowNsec = s.sampled.nowNsec →
        u.sampled.nowSec.toNat % 2 ^ 36 = s.sampled.nowSec.toNat % 2 ^ 36 →
        ∃ (v : State) (q : Response), exec .next u = .next v ∧ v.rsp = some q ∧
          v.regs.counter = 2 ∧ q.id.toNat < r.id.toNat
end

