-- ==== Sys2Proof/Laws/Codec.lean ====
section
/-! SUPPORT. `digits10` and `encodeDecimal` (spec/43_subsecond_codec.md R83, R84), each by what it
satisfies. -/

namespace Sys2Proof.Machine

theorem one_le_countDigits (fuel n : Nat) : 1 ≤ countDigits fuel n := by
  cases fuel with
  | zero => exact Nat.le_refl 1
  | succ fuel => rw [countDigits]; split <;> omega

theorem countDigits_small (fuel n : Nat) (h : n < 10) : countDigits fuel n = 1 := by
  cases fuel with
  | zero => rfl
  | succ fuel => rw [countDigits, if_pos h]

theorem lt_pow_countDigits (fuel n : Nat) (h : n ≤ fuel) : n < 10 ^ countDigits fuel n := by
  induction fuel generalizing n with
  | zero => simp [countDigits]; omega
  | succ fuel ih =>
    rw [countDigits]
    split
    · simpa
    · have := ih (n / 10) (by omega)
      rw [pow_add, pow_one]; omega

theorem pow_countDigits_le (fuel n : Nat) (h1 : 1 ≤ n) (h : n ≤ fuel) :
    10 ^ (countDigits fuel n - 1) ≤ n := by
  induction fuel generalizing n with
  | zero => omega
  | succ fuel ih =>
    rw [countDigits]
    split
    · simpa using h1
    · have h2 := ih (n / 10) (by omega) (by omega)
      have h3 := one_le_countDigits fuel (n / 10)
      rw [show 1 + countDigits fuel (n / 10) - 1 = (countDigits fuel (n / 10) - 1) + 1 by omega,
        pow_succ]
      omega

theorem one_le_digits10 (n : Nat) : 1 ≤ digits10 n := one_le_countDigits n n

theorem lt_pow_digits10 (n : Nat) : n < 10 ^ digits10 n := lt_pow_countDigits n n (Nat.le_refl n)

theorem pow_digits10_le (n : Nat) (h : 1 ≤ n) : 10 ^ (digits10 n - 1) ≤ n :=
  pow_countDigits_le n n h (Nat.le_refl n)

/-- `digits10` is the unique digit count (R83). -/
theorem digits10_unique (n d : Nat) (hd : 1 ≤ d) (h : n < 10 ^ d)
    (hl : (n = 0 ∧ d = 1) ∨ (1 ≤ n ∧ 10 ^ (d - 1) ≤ n)) : digits10 n = d := by
  rcases hl with ⟨rfl, rfl⟩ | ⟨h1, h2⟩
  · rfl
  · have h3 := lt_pow_digits10 n
    have h4 := pow_digits10_le n h1
    have h5 := one_le_digits10 n
    have a1 : d - 1 < digits10 n := (Nat.pow_lt_pow_iff_right (by omega)).mp (by omega : 10 ^ (d - 1) < 10 ^ digits10 n)
    have a2 : digits10 n - 1 < d := (Nat.pow_lt_pow_iff_right (by omega)).mp (by omega : 10 ^ (digits10 n - 1) < 10 ^ d)
    omega

theorem digits10_mul_ten (n : Nat) (h : 1 ≤ n) : digits10 (n * 10) = digits10 n + 1 := by
  have h3 := lt_pow_digits10 n
  have h4 := pow_digits10_le n h
  have h5 := one_le_digits10 n
  apply digits10_unique
  · omega
  · rw [pow_succ]; omega
  · right
    refine ⟨by omega, ?_⟩
    rw [show digits10 n + 1 - 1 = (digits10 n - 1) + 1 by omega, pow_succ]; omega

/-- The encoding is below `2^b` (R89). -/
theorem encodeDecimal_lt (n b : Nat) : encodeDecimal n b < 2 ^ b := by
  unfold encodeDecimal
  rw [Nat.div_lt_iff_lt_mul (by positivity), Nat.mul_comm]
  exact Nat.mul_lt_mul_of_pos_left (lt_pow_digits10 n) (by positivity)

@[simp] theorem encodeDecimal_zero_width (n : Nat) : encodeDecimal n 0 = 0 := by
  have := encodeDecimal_lt n 0
  simpa using this

/-- The floor, as two inequalities (R89). -/
theorem encodeDecimal_floor (n b : Nat) :
    encodeDecimal n b * 10 ^ digits10 n ≤ n * 2 ^ b
      ∧ n * 2 ^ b < (encodeDecimal n b + 1) * 10 ^ digits10 n := by
  have hp : 0 < 10 ^ digits10 n := by positivity
  unfold encodeDecimal
  refine ⟨Nat.div_mul_le_self _ _, ?_⟩
  rw [Nat.mul_comm (_ + 1)]
  exact Nat.lt_mul_div_succ _ hp

/-- The encoding fits its 8-byte buffer when `b` is at most 64 (R84). -/
theorem encodeDecimal_toNat (n b : Nat) (h : b ≤ 64) :
    (zext64 (encodeDecimal n b)).toNat = encodeDecimal n b := by
  have h1 := encodeDecimal_lt n b
  have h2 : 2 ^ b ≤ 2 ^ 64 := Nat.pow_le_pow_right (by omega) h
  simp only [zext64, BitVec.toNat_ofNat]
  exact Nat.mod_eq_of_lt (by omega)

end Sys2Proof.Machine
end

