-- ==== Sys2Proof/Laws/Decode.lean ====
section
/-! SUPPORT. The fields of a packed word, and what a decoded word says of its fields. -/

namespace Sys2Proof

theorem opField_pack (op : BitVec 4) (sel : BitVec 1) (a b c : Field) :
    opField (pack op sel a b c) = op := by
  unfold opField pack
  ext i hi
  interval_cases i <;> simp

theorem selField_pack (op : BitVec 4) (sel : BitVec 1) (a b c : Field) :
    selField (pack op sel a b c) = sel := by
  unfold selField pack
  ext i hi
  interval_cases i; simp

theorem rsvField_pack (op : BitVec 4) (sel : BitVec 1) (a b c : Field) :
    rsvField (pack op sel a b c) = 0#3 := by
  unfold rsvField pack
  ext i hi
  interval_cases i <;> simp

theorem aField_pack (op : BitVec 4) (sel : BitVec 1) (a b c : Field) :
    aField (pack op sel a b c) = a := by
  unfold aField pack
  ext i hi
  interval_cases i <;> simp

theorem bField_pack (op : BitVec 4) (sel : BitVec 1) (a b c : Field) :
    bField (pack op sel a b c) = b := by
  unfold bField pack
  ext i hi
  interval_cases i <;> simp

theorem cField_pack (op : BitVec 4) (sel : BitVec 1) (a b c : Field) :
    cField (pack op sel a b c) = c := by
  unfold cField pack
  ext i hi
  interval_cases i <;> simp

/-- A word with `rsv` = 0 is the packing of its fields (spec/30_encoding.md R52). -/
theorem pack_fields (w : Command) (h : rsvField w = 0#3) :
    pack (opField w) (selField w) (aField w) (bField w) (cField w) = w := by
  have h0 := congrArg (fun v => v.getLsbD 0) h
  have h1 := congrArg (fun v => v.getLsbD 1) h
  have h2 := congrArg (fun v => v.getLsbD 2) h
  simp [rsvField] at h0 h1 h2
  unfold pack opField selField aField bField cField
  ext i hi
  interval_cases i <;> simp_all

@[simp] theorem ifUnusedZero_true (i : Instr) : ifUnusedZero true i = .ok i := rfl

theorem ifUnusedZero_ok {z : Bool} {i j : Instr} :
    ifUnusedZero z i = .ok j ↔ z = true ∧ i = j := by
  cases z <;> simp [ifUnusedZero]

end Sys2Proof
end

