-- ==== Sys2Proof/Laws/Operands.lean ====
section
/-! SUPPORT. One lemma for each shared operation on buffers, saying once what it can do. -/

namespace Sys2Proof.Machine

/-- What one write does to every bit (spec/20_memory.md R34). -/
theorem getMsbD_putBit {w : Nat} (buf : BitVec w) (i j : Nat) (v : Bool) (hi : i < w) :
    (putBit buf i v).getMsbD j = if j = i then v else buf.getMsbD j := by
  by_cases hj : j < w
  · have hsub : (w - 1 - j = w - 1 - i) ↔ j = i := by omega
    have hlt : w - 1 - j < w := by omega
    by_cases hji : j = i
    · subst hji
      cases v <;> simp [putBit, BitVec.getMsbD, hj, hlt]
    · have h1 : ¬ (w - 1 - j = w - 1 - i) := by omega
      rcases Nat.lt_or_ge (w - 1 - j) (w - 1 - i) with h | h
      · cases v <;> simp [putBit, BitVec.getMsbD, hj, hji, h, hlt]
      · have h2 : w - 1 - j - (w - 1 - i) ≠ 0 := by omega
        have h3 : ¬ (w - 1 - j < w - 1 - i) := by omega
        cases v <;> simp [putBit, BitVec.getMsbD, hj, hji, h3, hlt, h2]
  · have : j ≠ i := by omega
    simp [BitVec.getMsbD, hj, this]

/-- A range-checked read, in range. -/
@[simp] theorem getBit_inRange {w : Nat} (kind : BufKind) (buf : BitVec w) (i : Nat) (h : i < w) :
    getBit kind buf i = .ok (buf.getMsbD i) := if_pos h

/-- A range-checked read, out of range (R35). -/
@[simp] theorem getBit_outOfRange {w : Nat} (kind : BufKind) (buf : BitVec w) (i : Nat)
    (h : w ≤ i) : getBit kind buf i = .error ⟨kind, i⟩ := if_neg (Nat.not_lt.mpr h)

/-- A range-checked write, in range. -/
@[simp] theorem setBit_inRange {w : Nat} (kind : BufKind) (buf : BitVec w) (i : Nat) (v : Bool)
    (h : i < w) : setBit kind buf i v = .ok (putBit buf i v) := if_pos h

/-- A range-checked write, out of range (R35). -/
@[simp] theorem setBit_outOfRange {w : Nat} (kind : BufKind) (buf : BitVec w) (i : Nat) (v : Bool)
    (h : w ≤ i) : setBit kind buf i v = .error ⟨kind, i⟩ := if_neg (Nat.not_lt.mpr h)

/-- `absolute` on its three ranges (spec/20_memory.md R38). -/
theorem absolute_eq (l : Nat) :
    absolute l = if l ≤ 11 then l + 36 else if l ≤ 23 then l + 40 else l + 42 := by
  unfold absolute
  by_cases h1 : l ≤ 11
  · have h2 : ¬ l > 23 := by omega
    have h3 : ¬ l > 11 := by omega
    simp [h1, h2, h3, Nat.add_comm]
  · have h3 : l > 11 := by omega
    by_cases h2 : l ≤ 23
    · have h4 : ¬ l > 23 := by omega
      simp [h1, h2, h3, h4]; omega
    · have h4 : l > 23 := by omega
      simp [h1, h2, h3, h4]; omega

theorem absolute_lt_iff (l : Nat) : absolute l < 128 ↔ l < 86 := by
  rw [absolute_eq]; split_ifs <;> omega

theorem absolute_of_ge (l : Nat) (h : 86 ≤ l) : absolute l = l + 42 := by
  rw [absolute_eq]; split_ifs <;> omega

theorem absolute_strictMono {l m : Nat} (h : l < m) : absolute l < absolute m := by
  rw [absolute_eq, absolute_eq]; split_ifs <;> omega

theorem absolute_inj {l m : Nat} : absolute l = absolute m ↔ l = m := by
  constructor
  · intro h
    rcases Nat.lt_trichotomy l m with hlt | heq | hgt
    · have := absolute_strictMono hlt; omega
    · exact heq
    · have := absolute_strictMono hgt; omega
  · rintro rfl; rfl

/-- `absolute` never yields a timestamp, version or variant position (R38 (c)). -/
theorem absolute_avoids (l : Nat) :
    36 ≤ absolute l ∧ ¬ (48 ≤ absolute l ∧ absolute l ≤ 51) ∧ absolute l ≠ 64
      ∧ absolute l ≠ 65 := by
  rw [absolute_eq]; split_ifs <;> omega

/-- Every payload position is some logical offset's (R38 (e)). -/
theorem exists_logical {a : Nat} (h1 : 36 ≤ a) (h2 : a < 128) (h3 : ¬ (48 ≤ a ∧ a ≤ 51))
    (h4 : a ≠ 64) (h5 : a ≠ 65) : ∃ l, l < 86 ∧ absolute l = a := by
  by_cases ha : a ≤ 47
  · exact ⟨a - 36, by omega, by rw [absolute_eq]; split_ifs <;> omega⟩
  · by_cases hb : a ≤ 63
    · exact ⟨a - 40, by omega, by rw [absolute_eq]; split_ifs <;> omega⟩
    · exact ⟨a - 42, by omega, by rw [absolute_eq]; split_ifs <;> omega⟩

/-- The write loop leaves every index alone that it does not name. -/
theorem writeBits_other (dst : Nat → Nat) (val : Nat → Bool) (n k : Nat) (id : Ident) (j : Nat)
    (hd : ∀ m, k ≤ m → m < k + n → dst m < 128) (hj : ∀ m, k ≤ m → m < k + n → j ≠ dst m) :
    (writeBits dst val n k id).getMsbD j = id.getMsbD j := by
  induction n generalizing k id with
  | zero => rfl
  | succ n ih =>
    rw [writeBits, ih]
    · rw [getMsbD_putBit _ _ _ _ (hd k (by omega) (by omega))]
      rw [if_neg (hj k (by omega) (by omega))]
    · intro m h1 h2; exact hd m (by omega) (by omega)
    · intro m h1 h2; exact hj m (by omega) (by omega)

/-- The write loop puts `val m` at `dst m`, when the destinations are distinct. -/
theorem writeBits_at (dst : Nat → Nat) (val : Nat → Bool) (n k : Nat) (id : Ident) (m : Nat)
    (hd : ∀ m, k ≤ m → m < k + n → dst m < 128) (hinj : ∀ a b, dst a = dst b → a = b)
    (h1 : k ≤ m) (h2 : m < k + n) :
    (writeBits dst val n k id).getMsbD (dst m) = val m := by
  induction n generalizing k id with
  | zero => omega
  | succ n ih =>
    rw [writeBits]
    by_cases hm : m = k
    · subst hm
      rw [writeBits_other]
      · rw [getMsbD_putBit _ _ _ _ (hd m (by omega) (by omega)), if_pos rfl]
      · intro m' _ _; exact hd m' (by omega) (by omega)
      · intro m' h3 _ heq
        have := hinj _ _ heq
        omega
    · apply ih
      · intro m' _ _; exact hd m' (by omega) (by omega)
      · omega
      · omega

/-- The read loop as one number: what was there, shifted, plus the bits read. -/
theorem readBits_spec (bit : Nat → Bool) (n k f : Nat) :
    readBits bit n k f = f * 2 ^ n + readBits bit n k 0 := by
  induction n generalizing k f with
  | zero => simp [readBits]
  | succ n ih =>
    rw [readBits, ih, readBits, ih (f := 2 * 0 + _)]
    ring

theorem readBits_lt (bit : Nat → Bool) (n k : Nat) : readBits bit n k 0 < 2 ^ n := by
  induction n generalizing k with
  | zero => simp [readBits]
  | succ n ih =>
    rw [readBits, readBits_spec]
    have := ih (k + 1)
    have hb : (bit k).toNat ≤ 1 := Bool.toNat_le _
    have : (2 * 0 + (bit k).toNat) * 2 ^ n ≤ 2 ^ n := by
      calc _ ≤ 1 * 2 ^ n := Nat.mul_le_mul_right _ (by omega)
        _ = _ := one_mul _
    rw [pow_succ]; omega

/-- The bit of weight `2^(n-1-j)` of what the read loop reads is the `j`-th bit read. -/
theorem readBits_testBit (bit : Nat → Bool) (n k j : Nat) (hj : j < n) :
    (readBits bit n k 0).testBit (n - 1 - j) = bit (k + j) := by
  induction n generalizing k j with
  | zero => omega
  | succ n ih =>
    rw [readBits, readBits_spec]
    have hlt := readBits_lt bit n (k + 1)
    rw [Nat.mul_comm, Nat.testBit_two_pow_mul_add _ hlt]
    by_cases h0 : j = 0
    · subst h0
      cases bit k <;> simp
    · have h1 : n + 1 - 1 - j < n := by omega
      rw [if_pos h1]
      have := ih (k + 1) (j - 1) (by omega)
      rw [show n - 1 - (j - 1) = n + 1 - 1 - j by omega] at this
      rw [this, show k + 1 + (j - 1) = k + j by omega]

/-- `stack`'s loop, when every access is in range, is the write loop (spec/42_field_stacking.md
R78). -/
theorem stackLoop_inRange (start : Nat) (src : Source) (n k : Nat) (id : Ident)
    (h1 : k + n ≤ 64) (h2 : start + k + n ≤ 86) :
    stackLoop start src n k id =
      .ok (writeBits (fun m => absolute (start + m)) src.getLsbD n k id) := by
  induction n generalizing k id with
  | zero => rfl
  | succ n ih =>
    rw [stackLoop, if_neg (by omega), setBit_inRange _ _ _ _ ((absolute_lt_iff _).mpr (by omega))]
    exact ih (k + 1) _ (by omega) (by omega)

/-- `stack`'s loop runs past its good accesses and stops at the first bad one. -/
theorem stackLoop_skip (start : Nat) (src : Source) (n k m : Nat) (id : Ident)
    (h1 : k + m ≤ 64) (h2 : start + k + m ≤ 86) :
    ∃ id', stackLoop start src (m + n) k id = stackLoop start src n (k + m) id' := by
  induction m generalizing k id with
  | zero => exact ⟨id, by simp⟩
  | succ m ih =>
    obtain ⟨id', h⟩ := ih (k + 1) (putBit id (absolute (start + k)) (src.getLsbD k)) (by omega)
      (by omega)
    refine ⟨id', ?_⟩
    rw [show m + 1 + n = (m + n) + 1 by omega, stackLoop, if_neg (by omega),
      setBit_inRange _ _ _ _ ((absolute_lt_iff _).mpr (by omega))]
    simpa [show k + 1 + m = k + (m + 1) by omega] using h

/-- If `stack`'s loop answers, every access was in range. -/
theorem stackLoop_ok_inRange (start : Nat) (src : Source) (n k : Nat) (id id' : Ident)
    (h : stackLoop start src n k id = .ok id') : n = 0 ∨ (k + n ≤ 64 ∧ start + k + n ≤ 86) := by
  induction n generalizing k id with
  | zero => exact .inl rfl
  | succ n ih =>
    right
    rw [stackLoop] at h
    split at h
    · cases h
    · by_cases hs : absolute (start + k) < 128
      · rw [setBit_inRange _ _ _ _ hs] at h
        have := (absolute_lt_iff _).mp hs
        rcases ih (k + 1) _ h with h0 | h0 <;> omega
      · rw [setBit_outOfRange _ _ _ _ (by omega)] at h
        cases h

/-- `stack` in range (R78). -/
theorem stack_inRange (id : Ident) (start : Nat) (src : Source) (n : Nat)
    (h : n = 0 ∨ (n ≤ 64 ∧ start + n ≤ 86)) :
    stack id start src n =
      .ok (writeBits (fun m => absolute (start + m)) src.getLsbD n 0 id, start + n) := by
  rcases h with rfl | ⟨h1, h2⟩
  · rfl
  · rw [stack, stackLoop_inRange _ _ _ _ _ (by omega) (by omega)]

/-- Everything `stack` can answer: in range, or a first bad access (R78). -/
theorem stack_ok (id : Ident) (start : Nat) (src : Source) (n : Nat) (r : Ident × Nat)
    (h : stack id start src n = .ok r) :
    (n = 0 ∨ (n ≤ 64 ∧ start + n ≤ 86)) ∧
      r = (writeBits (fun m => absolute (start + m)) src.getLsbD n 0 id, start + n) := by
  have hr : n = 0 ∨ (n ≤ 64 ∧ start + n ≤ 86) := by
    rw [stack] at h
    split at h
    · next id' hl => simpa using stackLoop_ok_inRange _ _ _ _ _ _ hl
    · cases h
  refine ⟨hr, ?_⟩
  rw [stack_inRange _ _ _ _ hr] at h
  exact (Except.ok.inj h).symm

/-- `GETPAY`'s loop, when every access is in range, is the read loop (spec/44_accessors.md R96). -/
theorem payloadLoop_inRange (id : Ident) (start n k f : Nat) (h : start + k + n ≤ 86) :
    payloadLoop id start n k f =
      .ok (readBits (fun m => id.getMsbD (absolute (start + m))) n k f) := by
  induction n generalizing k f with
  | zero => rfl
  | succ n ih =>
    rw [payloadLoop, getBit_inRange _ _ _ ((absolute_lt_iff _).mpr (by omega))]
    exact ih (k + 1) _ (by omega)

/-- `GETPAY`'s loop stops at the first offset past the payload. -/
theorem payloadLoop_outOfRange (id : Ident) (start n k f : Nat) (hn : 0 < n)
    (h : 86 < start + k + n) (hk : start + k ≤ 86 ∨ k = 0) :
    payloadLoop id start n k f =
      .error ⟨.identifier, if start ≤ 86 then 128 else start + 42⟩ := by
  induction n generalizing k f with
  | zero => omega
  | succ n ih =>
    rw [payloadLoop]
    by_cases hs : start + k < 86
    · rw [getBit_inRange _ _ _ ((absolute_lt_iff _).mpr hs)]
      exact ih (k + 1) _ (by omega) (by omega) (by omega)
    · have ha := absolute_of_ge (start + k) (by omega)
      rw [getBit_outOfRange _ _ _ (by omega), ha]
      simp only [Except.error.injEq, BitFault.mk.injEq, true_and]
      split <;> omega

end Sys2Proof.Machine
end

