-- ==== Sys2Proof/Laws/Generator.lean ====
section
/-! SUPPORT. The phases of `NEXT` (spec/45_generator.md R106 to R113), each by the bits it leaves, and
`generate` as their composition. -/

namespace Sys2Proof.Machine

/-- A stacked field at a payload position. -/
theorem field_getMsbD_absolute (st n : Nat) (f : Nat → Bool) (id : Ident) (l : Nat)
    (h : n = 0 ∨ st + n ≤ 86) :
    (writeBits (fun m => absolute (st + m)) f n 0 id).getMsbD (absolute l) =
      if st ≤ l ∧ l < st + n then f (l - st) else id.getMsbD (absolute l) := by
  split
  · next hl =>
    have := writeBits_at (fun m => absolute (st + m)) f n 0 id (l - st)
      (fun m _ hm => (absolute_lt_iff _).mpr (by omega))
      (fun a b hab => by have := absolute_inj.mp hab; omega) (by omega) (by omega)
    simpa [show st + (l - st) = l by omega] using this
  · next hl =>
    apply writeBits_other
    · intro m _ hm; exact (absolute_lt_iff _).mpr (by omega)
    · intro m _ hm heq
      have := absolute_inj.mp heq
      omega

/-- A stacked field leaves every position alone that is no payload position. -/
theorem field_getMsbD_other (st n : Nat) (f : Nat → Bool) (id : Ident) (j : Nat)
    (h : n = 0 ∨ st + n ≤ 86) (hj : ∀ l, absolute l ≠ j) :
    (writeBits (fun m => absolute (st + m)) f n 0 id).getMsbD j = id.getMsbD j := by
  apply writeBits_other
  · intro m _ hm; exact (absolute_lt_iff _).mpr (by omega)
  · intro m _ _ heq; exact hj _ heq.symm

theorem absolute_ne_timestamp {j : Nat} (h : j < 36) (l : Nat) : absolute l ≠ j := by
  have := absolute_avoids l; omega

/-- `P2_TIMESTAMP` (R107). -/
theorem packTimestamp_getMsbD (sec : BitVec 64) (work : Ident) (j : Nat) :
    (packTimestamp sec work).getMsbD j =
      if j < 36 then sec.getLsbD (35 - j) else work.getMsbD j := by
  unfold packTimestamp
  split
  · next h =>
    exact writeBits_at (fun i => i) (fun i => sec.getLsbD (35 - i)) Config.tsBits 0 work j
      (fun m _ hm => by simp at hm; omega) (fun _ _ h => h) (by omega) (by simpa using h)
  · next h =>
    apply writeBits_other
    · intro m _ hm; simp at hm; omega
    · intro m _ hm; simp at hm; omega

/-- `P7_RANDOM` at a payload position (R112). -/
theorem fillRandom_getMsbD_absolute (rnd : Ident) (cur : Nat) (work : Ident) (l : Nat)
    (hl : l < 86) :
    (fillRandom rnd cur work).getMsbD (absolute l) =
      if cur ≤ l then rnd.getMsbD (absolute l) else work.getMsbD (absolute l) := by
  unfold fillRandom
  split
  · next h =>
    exact writeBits_at absolute (fun l => rnd.getMsbD (absolute l)) _ _ _ l
      (fun m _ hm => (absolute_lt_iff _).mpr (by simp at hm; omega))
      (fun _ _ h => absolute_inj.mp h) h (by simp; omega)
  · next h =>
    apply writeBits_other
    · intro m _ hm; exact (absolute_lt_iff _).mpr (by simp at hm; omega)
    · intro m hm _ heq
      have := absolute_inj.mp heq
      omega

/-- `P7_RANDOM` leaves every position alone that is no payload position. -/
theorem fillRandom_getMsbD_other (rnd : Ident) (cur : Nat) (work : Ident) (j : Nat)
    (hj : ∀ l, absolute l ≠ j) : (fillRandom rnd cur work).getMsbD j = work.getMsbD j := by
  apply writeBits_other
  · intro m _ hm; exact (absolute_lt_iff _).mpr (by simp at hm; omega)
  · intro m _ _ heq; exact hj _ heq.symm

/-- `P8_MARKERS` (R113). -/
theorem forceMarkers_getMsbD (work : Ident) (j : Nat) :
    (forceMarkers work).getMsbD j =
      if j = 48 ∨ j = 65 then false
      else if j = 49 ∨ j = 50 ∨ j = 51 ∨ j = 64 then true else work.getMsbD j := by
  simp only [forceMarkers]
  rw [getMsbD_putBit _ _ _ _ (by omega), getMsbD_putBit _ _ _ _ (by omega),
    getMsbD_putBit _ _ _ _ (by omega), getMsbD_putBit _ _ _ _ (by omega),
    getMsbD_putBit _ _ _ _ (by omega), getMsbD_putBit _ _ _ _ (by omega)]
  split_ifs <;> first | rfl | omega

/-- How many bits an optional field takes. -/
def fieldWidth (present : Bool) (n : Nat) : Nat := if present then n else 0

theorem stackField_inRange (present : Bool) (src : Source) (n : Nat) (id : Ident) (st : Nat)
    (h : fieldWidth present n = 0 ∨ (fieldWidth present n ≤ 64 ∧ st + fieldWidth present n ≤ 86)) :
    stackField present src n (id, st) =
      .ok (writeBits (fun m => absolute (st + m)) src.getLsbD (fieldWidth present n) 0 id,
        st + fieldWidth present n) := by
  cases present with
  | true => exact stack_inRange id st src n h
  | false => rfl

theorem stackField_ok (present : Bool) (src : Source) (n : Nat) (id : Ident) (st : Nat)
    (r : Ident × Nat) (h : stackField present src n (id, st) = .ok r) :
    (fieldWidth present n = 0 ∨ (fieldWidth present n ≤ 64 ∧ st + fieldWidth present n ≤ 86)) ∧
      r = (writeBits (fun m => absolute (st + m)) src.getLsbD (fieldWidth present n) 0 id,
        st + fieldWidth present n) := by
  cases present with
  | true => exact stack_ok id st src n r h
  | false => exact ⟨.inl rfl, (Except.ok.inj h).symm⟩

theorem fieldWidth_of_pos (n : Nat) : fieldWidth (decide (n > 0)) n = n := by
  cases n <;> simp [fieldWidth]

/-- The identifier before the random fill: timestamp and the stacked fields. -/
def stackedFields (r : Regs) (x : Sampled) (enc : BitVec 64) (tie : Bool) (ctr : BitVec 64) :
    Ident :=
  let sub := r.cfgSubsecBits.toNat
  let cnt := fieldWidth tie r.cfgCounterBits.toNat
  writeBits (fun m => absolute (sub + cnt + m)) r.cfgNodeValue.getLsbD r.cfgNodeBits.toNat 0
    (writeBits (fun m => absolute (sub + m)) ctr.getLsbD cnt 0
      (writeBits (fun m => absolute (0 + m)) enc.getLsbD sub 0 (packTimestamp x.nowSec 0)))

/-- What `generate` answers when no `stack` raises. -/
def generatedOf (r : Regs) (x : Sampled) : Generated :=
  let enc := subsecEncoding r x
  let tie := tieBreak r enc
  let ctr := nextCounter r tie
  let cur := r.cfgSubsecBits.toNat + fieldWidth tie r.cfgCounterBits.toNat + r.cfgNodeBits.toNat
  { id := forceMarkers (fillRandom x.rnd cur (stackedFields r x enc tie ctr)), enc := enc,
    tie := tie, ctr := ctr, cur := cur }

/-- Whether the three fields fit, as `stack` checks them. -/
def FieldsFit (r : Regs) (tie : Bool) : Prop :=
  let sub := r.cfgSubsecBits.toNat
  let cnt := fieldWidth tie r.cfgCounterBits.toNat
  let node := r.cfgNodeBits.toNat
  (sub = 0 ∨ (sub ≤ 64 ∧ sub ≤ 86)) ∧ (cnt = 0 ∨ (cnt ≤ 64 ∧ sub + cnt ≤ 86)) ∧
    (node = 0 ∨ (node ≤ 64 ∧ sub + cnt + node ≤ 86))

theorem generate_of_fieldsFit (r : Regs) (x : Sampled)
    (h : FieldsFit r (tieBreak r (subsecEncoding r x))) :
    generate r x = .ok (generatedOf r x) := by
  obtain ⟨h1, h2, h3⟩ := h
  simp only [generate]
  rw [stackField_inRange _ _ _ _ _ (by rw [fieldWidth_of_pos]; simpa using h1)]
  simp only [fieldWidth_of_pos]
  rw [stackField_inRange _ _ _ _ _ (by simpa using h2)]
  simp only
  rw [stackField_inRange _ _ _ _ _ (by rw [fieldWidth_of_pos]; simpa using h3)]
  simp only [fieldWidth_of_pos, generatedOf, stackedFields, Nat.zero_add]

/-- Everything `generate` answers when it answers (R115). -/
theorem generate_ok (r : Regs) (x : Sampled) (g : Generated) (h : generate r x = .ok g) :
    FieldsFit r (tieBreak r (subsecEncoding r x)) ∧ g = generatedOf r x := by
  have hf : FieldsFit r (tieBreak r (subsecEncoding r x)) := by
    simp only [generate] at h
    split at h
    · cases h
    · next a1 e1 =>
      obtain ⟨f1, rfl⟩ := stackField_ok _ _ _ _ _ _ e1
      split at h
      · cases h
      · next a2 e2 =>
        obtain ⟨f2, rfl⟩ := stackField_ok _ _ _ _ _ _ e2
        split at h
        · cases h
        · next w c e3 =>
          obtain ⟨f3, _⟩ := stackField_ok _ _ _ _ _ _ e3
          simp only [fieldWidth_of_pos, Nat.zero_add] at f1 f2 f3
          exact ⟨f1, f2, f3⟩
  refine ⟨hf, ?_⟩
  rw [generate_of_fieldsFit r x hf] at h
  exact (Except.ok.inj h).symm

/-- A legal configuration always fits (spec/42_field_stacking.md R81). -/
theorem fieldsFit_of_legal (r : Regs) (tie : Bool) (h1 : r.cfgSubsecBits.toNat ≤ 64)
    (h2 : r.cfgCounterBits.toNat ≤ 64) (h3 : r.cfgNodeBits.toNat ≤ 64)
    (h4 : r.cfgSubsecBits.toNat + r.cfgCounterBits.toNat + r.cfgNodeBits.toNat ≤ 86) :
    FieldsFit r tie := by
  cases tie <;> simp only [FieldsFit, fieldWidth] <;> simp <;> omega

theorem fieldsFit_cur_le (r : Regs) (tie : Bool) (h : FieldsFit r tie) :
    r.cfgSubsecBits.toNat + fieldWidth tie r.cfgCounterBits.toNat + r.cfgNodeBits.toNat ≤ 86 := by
  obtain ⟨h1, h2, h3⟩ := h
  omega

/-- The encoding of a call as a number (R108). -/
theorem subsecEncoding_eq (r : Regs) (x : Sampled) :
    subsecEncoding r x = zext64 (encodeDecimal x.nowNsec.toNat r.cfgSubsecBits.toNat) := by
  unfold subsecEncoding
  split
  · rfl
  · next h =>
    have : r.cfgSubsecBits.toNat = 0 := by omega
    rw [this, encodeDecimal_zero_width]; rfl

/-- Every bit of a generated identifier outside the payload (R116). -/
theorem generatedOf_fixed_bits (r : Regs) (x : Sampled)
    (hf : FieldsFit r (tieBreak r (subsecEncoding r x))) :
    (∀ j, j < 36 → (generatedOf r x).id.getMsbD j = x.nowSec.getLsbD (35 - j)) ∧
    (generatedOf r x).id.getMsbD 48 = false ∧ (generatedOf r x).id.getMsbD 49 = true ∧
    (generatedOf r x).id.getMsbD 50 = true ∧ (generatedOf r x).id.getMsbD 51 = true ∧
    (generatedOf r x).id.getMsbD 64 = true ∧ (generatedOf r x).id.getMsbD 65 = false := by
  refine ⟨fun j hj => ?_, ?_, ?_, ?_, ?_, ?_, ?_⟩
  · obtain ⟨h1, h2, h3⟩ := hf
    have ha := absolute_ne_timestamp hj
    simp only [generatedOf, forceMarkers_getMsbD]
    rw [if_neg (by omega), if_neg (by omega), fillRandom_getMsbD_other _ _ _ _ ha]
    simp only [stackedFields]
    rw [field_getMsbD_other _ _ _ _ _ (by omega) ha, field_getMsbD_other _ _ _ _ _ (by omega) ha,
      field_getMsbD_other _ _ _ _ _ (by omega) ha, packTimestamp_getMsbD, if_pos hj]
  all_goals simp [generatedOf, forceMarkers_getMsbD]

/-- Every payload bit of a generated identifier (R116). -/
theorem generatedOf_payload_bits (r : Regs) (x : Sampled)
    (hf : FieldsFit r (tieBreak r (subsecEncoding r x))) (l : Nat) (hl : l < 86) :
    (generatedOf r x).id.getMsbD (absolute l) =
      (let enc := subsecEncoding r x
       let tie := tieBreak r enc
       let c0 := r.cfgSubsecBits.toNat
       let c1 := c0 + fieldWidth tie r.cfgCounterBits.toNat
       let c2 := c1 + r.cfgNodeBits.toNat
       if l < c0 then enc.getLsbD l
       else if l < c1 then (nextCounter r tie).getLsbD (l - c0)
       else if l < c2 then r.cfgNodeValue.getLsbD (l - c1)
       else x.rnd.getMsbD (absolute l)) := by
  obtain ⟨h1, h2, h3⟩ := hf
  have ha := absolute_avoids l
  simp only [generatedOf, forceMarkers_getMsbD]
  rw [if_neg (by omega), if_neg (by omega), fillRandom_getMsbD_absolute _ _ _ _ hl]
  simp only [stackedFields]
  rw [field_getMsbD_absolute _ _ _ _ _ (by omega), field_getMsbD_absolute _ _ _ _ _ (by omega),
    field_getMsbD_absolute _ _ _ _ _ (by omega)]
  simp only [Nat.zero_le, true_and, Nat.zero_add, Nat.sub_zero]
  split_ifs <;> first | rfl | omega

end Sys2Proof.Machine
end

