-- ==== Sys2Proof/Laws/State.lean ====
section
/-! SUPPORT. What each named update of the state leaves in each field: one lemma per field per update,
true by `rfl`. Later proofs rewrite with these and never unfold an update. -/

namespace Sys2Proof.Machine

@[simp] theorem respond_rsp (code : Code) (id : Ident) (val : BitVec 64) (s : State) :
    (respond code id val s).rsp = some ⟨code.bits, id, val⟩ := rfl
@[simp] theorem respond_fsm (code : Code) (id : Ident) (val : BitVec 64) (s : State) :
    (respond code id val s).regs.fsm = .idle := rfl
@[simp] theorem respond_configured (code : Code) (id : Ident) (val : BitVec 64) (s : State) :
    (respond code id val s).regs.configured = s.regs.configured := rfl
@[simp] theorem respond_cfgSubsecBits (code : Code) (id : Ident) (val : BitVec 64) (s : State) :
    (respond code id val s).regs.cfgSubsecBits = s.regs.cfgSubsecBits := rfl
@[simp] theorem respond_cfgCounterBits (code : Code) (id : Ident) (val : BitVec 64) (s : State) :
    (respond code id val s).regs.cfgCounterBits = s.regs.cfgCounterBits := rfl
@[simp] theorem respond_cfgNodeBits (code : Code) (id : Ident) (val : BitVec 64) (s : State) :
    (respond code id val s).regs.cfgNodeBits = s.regs.cfgNodeBits := rfl
@[simp] theorem respond_cfgNodeValue (code : Code) (id : Ident) (val : BitVec 64) (s : State) :
    (respond code id val s).regs.cfgNodeValue = s.regs.cfgNodeValue := rfl
@[simp] theorem respond_prevSubsec (code : Code) (id : Ident) (val : BitVec 64) (s : State) :
    (respond code id val s).regs.prevSubsec = s.regs.prevSubsec := rfl
@[simp] theorem respond_prevValid (code : Code) (id : Ident) (val : BitVec 64) (s : State) :
    (respond code id val s).regs.prevValid = s.regs.prevValid := rfl
@[simp] theorem respond_counter (code : Code) (id : Ident) (val : BitVec 64) (s : State) :
    (respond code id val s).regs.counter = s.regs.counter := rfl
@[simp] theorem respond_counterActive (code : Code) (id : Ident) (val : BitVec 64) (s : State) :
    (respond code id val s).regs.counterActive = s.regs.counterActive := rfl
@[simp] theorem respond_cursor (code : Code) (id : Ident) (val : BitVec 64) (s : State) :
    (respond code id val s).regs.cursor = s.regs.cursor := rfl
@[simp] theorem respond_cause (code : Code) (id : Ident) (val : BitVec 64) (s : State) :
    (respond code id val s).regs.cause = s.regs.cause := rfl
@[simp] theorem respond_finfo (code : Code) (id : Ident) (val : BitVec 64) (s : State) :
    (respond code id val s).regs.finfo = s.regs.finfo := rfl
@[simp] theorem respond_sampled (code : Code) (id : Ident) (val : BitVec 64) (s : State) :
    (respond code id val s).sampled = s.sampled := rfl
@[simp] theorem respond_inputs (code : Code) (id : Ident) (val : BitVec 64) (s : State) :
    (respond code id val s).inputs = s.inputs := rfl
@[simp] theorem respond_regs (code : Code) (id : Ident) (val : BitVec 64) (s : State) :
    (respond code id val s).regs = { s.regs with fsm := .idle } := rfl

@[simp] theorem raise_rsp (code : Code) (info : BitVec 17) (s : State) :
    (raise code info s).rsp = none := rfl
@[simp] theorem raise_fsm (code : Code) (info : BitVec 17) (s : State) :
    (raise code info s).regs.fsm = .fault := rfl
@[simp] theorem raise_configured (code : Code) (info : BitVec 17) (s : State) :
    (raise code info s).regs.configured = s.regs.configured := rfl
@[simp] theorem raise_cfgSubsecBits (code : Code) (info : BitVec 17) (s : State) :
    (raise code info s).regs.cfgSubsecBits = s.regs.cfgSubsecBits := rfl
@[simp] theorem raise_cfgCounterBits (code : Code) (info : BitVec 17) (s : State) :
    (raise code info s).regs.cfgCounterBits = s.regs.cfgCounterBits := rfl
@[simp] theorem raise_cfgNodeBits (code : Code) (info : BitVec 17) (s : State) :
    (raise code info s).regs.cfgNodeBits = s.regs.cfgNodeBits := rfl
@[simp] theorem raise_cfgNodeValue (code : Code) (info : BitVec 17) (s : State) :
    (raise code info s).regs.cfgNodeValue = s.regs.cfgNodeValue := rfl
@[simp] theorem raise_prevSubsec (code : Code) (info : BitVec 17) (s : State) :
    (raise code info s).regs.prevSubsec = s.regs.prevSubsec := rfl
@[simp] theorem raise_prevValid (code : Code) (info : BitVec 17) (s : State) :
    (raise code info s).regs.prevValid = s.regs.prevValid := rfl
@[simp] theorem raise_counter (code : Code) (info : BitVec 17) (s : State) :
    (raise code info s).regs.counter = s.regs.counter := rfl
@[simp] theorem raise_counterActive (code : Code) (info : BitVec 17) (s : State) :
    (raise code info s).regs.counterActive = s.regs.counterActive := rfl
@[simp] theorem raise_cursor (code : Code) (info : BitVec 17) (s : State) :
    (raise code info s).regs.cursor = s.regs.cursor := rfl
@[simp] theorem raise_cause (code : Code) (info : BitVec 17) (s : State) :
    (raise code info s).regs.cause = code.bits := rfl
@[simp] theorem raise_finfo (code : Code) (info : BitVec 17) (s : State) :
    (raise code info s).regs.finfo = info := rfl
@[simp] theorem raise_sampled (code : Code) (info : BitVec 17) (s : State) :
    (raise code info s).sampled = s.sampled := rfl
@[simp] theorem raise_inputs (code : Code) (info : BitVec 17) (s : State) :
    (raise code info s).inputs = s.inputs := rfl
@[simp] theorem raise_regs (code : Code) (info : BitVec 17) (s : State) :
    (raise code info s).regs = { s.regs with fsm := .fault, cause := code.bits, finfo := info } := rfl

@[simp] theorem resetEdge_regs (s : State) :
    (resetEdge s).regs = Regs.reset := rfl
@[simp] theorem resetEdge_sampled (s : State) :
    (resetEdge s).sampled = Sampled.reset := rfl
@[simp] theorem resetEdge_rsp (s : State) :
    (resetEdge s).rsp = none := rfl
@[simp] theorem resetEdge_inputs (s : State) :
    (resetEdge s).inputs = s.inputs := rfl

@[simp] theorem acceptCommand_regs (x : Sampled) (s : State) :
    (acceptCommand x s).regs = { s.regs with fsm := .busy } := rfl
@[simp] theorem acceptCommand_sampled (x : Sampled) (s : State) :
    (acceptCommand x s).sampled = x := rfl
@[simp] theorem acceptCommand_rsp (x : Sampled) (s : State) :
    (acceptCommand x s).rsp = none := rfl
@[simp] theorem acceptCommand_inputs (x : Sampled) (s : State) :
    (acceptCommand x s).inputs = s.inputs := rfl

@[simp] theorem quietEdge_regs (s : State) :
    (quietEdge s).regs = s.regs := rfl
@[simp] theorem quietEdge_sampled (s : State) :
    (quietEdge s).sampled = s.sampled := rfl
@[simp] theorem quietEdge_rsp (s : State) :
    (quietEdge s).rsp = none := rfl
@[simp] theorem quietEdge_inputs (s : State) :
    (quietEdge s).inputs = s.inputs := rfl

@[simp] theorem pastEdge_regs (s : State) :
    (pastEdge s).regs = s.regs := rfl
@[simp] theorem pastEdge_sampled (s : State) :
    (pastEdge s).sampled = s.sampled := rfl
@[simp] theorem pastEdge_rsp (s : State) :
    (pastEdge s).rsp = s.rsp := rfl
@[simp] theorem pastEdge_inputs (s : State) :
    (pastEdge s).inputs = s.inputs.tail := rfl

@[simp] theorem configure_fsm (sub cnt node : Nat) (value : Source) (r : Regs) :
    (configure sub cnt node value r).fsm = r.fsm := rfl
@[simp] theorem configure_configured (sub cnt node : Nat) (value : Source) (r : Regs) :
    (configure sub cnt node value r).configured = true := rfl
@[simp] theorem configure_cfgSubsecBits (sub cnt node : Nat) (value : Source) (r : Regs) :
    (configure sub cnt node value r).cfgSubsecBits = BitVec.ofNat 7 sub := rfl
@[simp] theorem configure_cfgCounterBits (sub cnt node : Nat) (value : Source) (r : Regs) :
    (configure sub cnt node value r).cfgCounterBits = BitVec.ofNat 7 cnt := rfl
@[simp] theorem configure_cfgNodeBits (sub cnt node : Nat) (value : Source) (r : Regs) :
    (configure sub cnt node value r).cfgNodeBits = BitVec.ofNat 7 node := rfl
@[simp] theorem configure_cfgNodeValue (sub cnt node : Nat) (value : Source) (r : Regs) :
    (configure sub cnt node value r).cfgNodeValue = value := rfl
@[simp] theorem configure_prevSubsec (sub cnt node : Nat) (value : Source) (r : Regs) :
    (configure sub cnt node value r).prevSubsec = 0 := rfl
@[simp] theorem configure_prevValid (sub cnt node : Nat) (value : Source) (r : Regs) :
    (configure sub cnt node value r).prevValid = false := rfl
@[simp] theorem configure_counter (sub cnt node : Nat) (value : Source) (r : Regs) :
    (configure sub cnt node value r).counter = 0 := rfl
@[simp] theorem configure_counterActive (sub cnt node : Nat) (value : Source) (r : Regs) :
    (configure sub cnt node value r).counterActive = false := rfl
@[simp] theorem configure_cursor (sub cnt node : Nat) (value : Source) (r : Regs) :
    (configure sub cnt node value r).cursor = 0 := rfl
@[simp] theorem configure_cause (sub cnt node : Nat) (value : Source) (r : Regs) :
    (configure sub cnt node value r).cause = r.cause := rfl
@[simp] theorem configure_finfo (sub cnt node : Nat) (value : Source) (r : Regs) :
    (configure sub cnt node value r).finfo = r.finfo := rfl

@[simp] theorem commitNext_fsm (g : Generated) (r : Regs) :
    (commitNext g r).fsm = r.fsm := rfl
@[simp] theorem commitNext_configured (g : Generated) (r : Regs) :
    (commitNext g r).configured = r.configured := rfl
@[simp] theorem commitNext_cfgSubsecBits (g : Generated) (r : Regs) :
    (commitNext g r).cfgSubsecBits = r.cfgSubsecBits := rfl
@[simp] theorem commitNext_cfgCounterBits (g : Generated) (r : Regs) :
    (commitNext g r).cfgCounterBits = r.cfgCounterBits := rfl
@[simp] theorem commitNext_cfgNodeBits (g : Generated) (r : Regs) :
    (commitNext g r).cfgNodeBits = r.cfgNodeBits := rfl
@[simp] theorem commitNext_cfgNodeValue (g : Generated) (r : Regs) :
    (commitNext g r).cfgNodeValue = r.cfgNodeValue := rfl
@[simp] theorem commitNext_prevSubsec (g : Generated) (r : Regs) :
    (commitNext g r).prevSubsec = g.enc := rfl
@[simp] theorem commitNext_prevValid (g : Generated) (r : Regs) :
    (commitNext g r).prevValid = true := rfl
@[simp] theorem commitNext_counter (g : Generated) (r : Regs) :
    (commitNext g r).counter = g.ctr := rfl
@[simp] theorem commitNext_counterActive (g : Generated) (r : Regs) :
    (commitNext g r).counterActive = g.tie := rfl
@[simp] theorem commitNext_cursor (g : Generated) (r : Regs) :
    (commitNext g r).cursor = BitVec.ofNat 8 g.cur := rfl
@[simp] theorem commitNext_cause (g : Generated) (r : Regs) :
    (commitNext g r).cause = r.cause := rfl
@[simp] theorem commitNext_finfo (g : Generated) (r : Regs) :
    (commitNext g r).finfo = r.finfo := rfl

end Sys2Proof.Machine
end

