-- ==== Sys2Proof/Laws/Ops.lean ====
section
/-! SUPPORT. `FINFO` as a number, and which accesses can offend (spec/10_state.md R24,
spec/60_exceptions.md R137). -/

namespace Sys2Proof.Machine

/-- `FINFO` of an identifier access is its index (R24). -/
theorem finfo_identifier (i : Nat) (h : i < 65536) :
    BitFault.finfo ⟨.identifier, i⟩ = BitVec.ofNat 17 i := by
  apply BitVec.eq_of_toNat_eq
  simp only [BitFault.finfo, BufKind.bit]
  rw [BitVec.toNat_append]
  simp only [BitVec.toNat_ofNat, Nat.shiftLeft_eq]
  simp; omega

/-- `FINFO` of a source access is its index, with bit 16 set (R24). -/
theorem finfo_source (i : Nat) (h : i < 65536) :
    BitFault.finfo ⟨.source, i⟩ = BitVec.ofNat 17 (65536 + i) := by
  apply BitVec.eq_of_toNat_eq
  simp only [BitFault.finfo, BufKind.bit]
  rw [BitVec.toNat_append]
  simp only [BitVec.toNat_ofNat]
  have h1 : i % 2 ^ 16 = i := by omega
  have h2 : BitVec.toNat (1 : BitVec 1) <<< 16 = 2 ^ 16 * 1 := rfl
  rw [h1, h2, ← Nat.two_pow_add_eq_or_of_lt (by omega : i < 2 ^ 16)]
  omega

/-- Where `stack`'s loop can stop (R79). -/
theorem stackLoop_error (start : Nat) (src : Source) (n k : Nat) (id : Ident) (e : BitFault)
    (hk : k ≤ 64) (hs : start + k ≤ 86 ∨ k = 0) (h : stackLoop start src n k id = .error e) :
    e = ⟨.source, 64⟩ ∨ e = ⟨.identifier, if start ≤ 86 then 128 else start + 42⟩ := by
  induction n generalizing k id with
  | zero => cases h
  | succ n ih =>
    rw [stackLoop] at h
    split at h
    · have hk' : k = 64 := by omega
      subst hk'
      exact .inl (Except.error.inj h).symm
    · by_cases ha : start + k < 86
      · rw [setBit_inRange _ _ _ _ ((absolute_lt_iff _).mpr ha)] at h
        exact ih (k + 1) _ (by omega) (by omega) h
      · have hb := absolute_of_ge (start + k) (by omega)
        rw [setBit_outOfRange _ _ _ _ (by omega)] at h
        right
        rw [← Except.error.inj h, hb]
        simp only [BitFault.mk.injEq, true_and]
        split <;> omega

end Sys2Proof.Machine
end

