-- ==== Sys2Proof/Laws/PerInstr.lean ====
section
/-! SUPPORT. One family for each statement made of every instruction: a `Statement` and a lemma for each
constructor. `EncodeFields`: the encoded word carries the operation's code and a zero `rsv` field
(spec/30_encoding.md R52, R58). -/

namespace Sys2Proof.Laws.EncodeFields

def Statement (i : Instr) : Prop := opField (encode i) = i.opcode ∧ rsvField (encode i) = 0#3

theorem nop : Statement .nop := ⟨opField_pack _ _ _ _ _, rsvField_pack _ _ _ _ _⟩

theorem cfg (sub cnt node : Field) : Statement (.cfg sub cnt node) :=
  ⟨opField_pack _ _ _ _ _, rsvField_pack _ _ _ _ _⟩

theorem next : Statement .next := ⟨opField_pack _ _ _ _ _, rsvField_pack _ _ _ _ _⟩

theorem getbit (sel : BufSel) (index : Field) : Statement (.getbit sel index) :=
  ⟨opField_pack _ _ _ _ _, rsvField_pack _ _ _ _ _⟩

theorem setbit (sel : BufSel) (index : Field) (v : Bool) : Statement (.setbit sel index v) :=
  ⟨opField_pack _ _ _ _ _, rsvField_pack _ _ _ _ _⟩

theorem map (l : Field) : Statement (.map l) := ⟨opField_pack _ _ _ _ _, rsvField_pack _ _ _ _ _⟩

theorem stack (start len : Field) : Statement (.stack start len) :=
  ⟨opField_pack _ _ _ _ _, rsvField_pack _ _ _ _ _⟩

theorem encdec (bits : Field) : Statement (.encdec bits) :=
  ⟨opField_pack _ _ _ _ _, rsvField_pack _ _ _ _ _⟩

theorem decdec (bits : Field) : Statement (.decdec bits) :=
  ⟨opField_pack _ _ _ _ _, rsvField_pack _ _ _ _ _⟩

theorem getts : Statement .getts := ⟨opField_pack _ _ _ _ _, rsvField_pack _ _ _ _ _⟩

theorem getver : Statement .getver := ⟨opField_pack _ _ _ _ _, rsvField_pack _ _ _ _ _⟩

theorem getvar : Statement .getvar := ⟨opField_pack _ _ _ _ _, rsvField_pack _ _ _ _ _⟩

theorem getpay (start len : Field) : Statement (.getpay start len) :=
  ⟨opField_pack _ _ _ _ _, rsvField_pack _ _ _ _ _⟩

theorem rdreg (number : Field) : Statement (.rdreg number) :=
  ⟨opField_pack _ _ _ _ _, rsvField_pack _ _ _ _ _⟩

end Sys2Proof.Laws.EncodeFields
end

