-- ==== Sys2Proof/Laws/Step.lean ====
section
/-! SUPPORT. What a meaning and a step can do, said once each, guards included. -/

namespace Sys2Proof.Machine

/-- A run whose first step goes on. -/
theorem run_succ_of_next {s t : State} (k : Nat) (h : step s = .next t) :
    core.run (k + 1) s = core.run k t := by
  have h' : core.step s = .next t := h
  exact (Host.Core.run.eq_2 core s k).trans (by rw [h'])

/-- A run of one step. -/
theorem run_one (s : State) : core.run 1 s = step s := by
  have h' := Host.Core.run.eq_2 core s 0
  cases h : step s with
  | next t => have hs : core.step s = .next t := h; exact h'.trans (by rw [hs]; rfl)
  | fault r => have hs : core.step s = .fault r := h; exact h'.trans (by rw [hs]; rfl)
  | refused r => have hs : core.step s = .refused r := h; exact h'.trans (by rw [hs]; rfl)

/-- How an operation other than a completed `CFG` or `NEXT` ends: an answer, or the fatal fault. -/
theorem execGetbit_cases (sel : BufSel) (index : Field) (s : State) :
    (∃ v : Bool, getOperandBit sel s.sampled index.toNat = .ok v ∧
      execGetbit sel index s = .next (respond .ok 0 (zext64 v.toNat) s)) ∨
    (∃ e, getOperandBit sel s.sampled index.toNat = .error e ∧
      execGetbit sel index s = .next (raiseBitIndex e s)) := by
  unfold execGetbit
  cases getOperandBit sel s.sampled index.toNat with
  | ok v => exact .inl ⟨v, rfl, rfl⟩
  | error e => exact .inr ⟨e, rfl, rfl⟩

theorem execSetbit_cases (sel : BufSel) (index : Field) (v : Bool) (s : State) :
    (∃ id val, execSetbit sel index v s = .next (respond .ok id val s)) ∨
    (∃ e, execSetbit sel index v s = .next (raiseBitIndex e s)) := by
  unfold execSetbit
  cases sel with
  | opId =>
    cases setBit .identifier s.sampled.opId index.toNat v with
    | ok buf => exact .inl ⟨buf, 0, rfl⟩
    | error e => exact .inr ⟨e, rfl⟩
  | opSrc =>
    cases setBit .source s.sampled.opSrc index.toNat v with
    | ok buf => exact .inl ⟨0, buf, rfl⟩
    | error e => exact .inr ⟨e, rfl⟩

theorem execStack_cases (start len : Field) (s : State) :
    (∃ id pos, execStack start len s = .next (respond .ok id (zext64 pos) s)) ∨
    (∃ e, execStack start len s = .next (raiseBitIndex e s)) := by
  unfold execStack
  cases stack s.sampled.opId start.toNat s.sampled.opSrc len.toNat with
  | ok r => exact .inl ⟨r.1, r.2, rfl⟩
  | error e => exact .inr ⟨e, rfl⟩

theorem execGetpay_cases (start len : Field) (s : State) :
    (∃ f, execGetpay start len s = .next (respond .ok (buf16 f) 0 s)) ∨
    (∃ e, execGetpay start len s = .next (raiseBitIndex e s)) := by
  unfold execGetpay
  cases payloadLoop s.sampled.opId start.toNat len.toNat 0 0 with
  | ok f => exact .inl ⟨f, rfl⟩
  | error e => exact .inr ⟨e, rfl⟩

theorem execCfg_cases (sub cnt node : Field) (s : State) :
    (configLegal sub.toNat cnt.toNat node.toNat = true ∧
      execCfg sub cnt node s = .next (respond .ok 0 0
        { s with regs := configure sub.toNat cnt.toNat node.toNat s.sampled.opSrc s.regs })) ∨
    (configLegal sub.toNat cnt.toNat node.toNat = false ∧
      execCfg sub cnt node s = .next (refuse .configurationError s)) := by
  unfold execCfg
  cases configLegal sub.toNat cnt.toNat node.toNat with
  | true => exact .inl ⟨rfl, rfl⟩
  | false => exact .inr ⟨rfl, rfl⟩

theorem execNext_cases (s : State) :
    (s.regs.configured = false ∧ execNext s = .next (refuse .notConfigured s)) ∨
    (s.regs.configured = true ∧ s.sampled.rndOk = false ∧
      execNext s = .next (raise .entropyFailure 0 s)) ∨
    (∃ g, s.regs.configured = true ∧ s.sampled.rndOk = true ∧
      generate s.regs s.sampled = .ok g ∧
      execNext s = .next (respond .ok g.id 0 { s with regs := commitNext g s.regs })) ∨
    (∃ e, s.regs.configured = true ∧ s.sampled.rndOk = true ∧
      generate s.regs s.sampled = .error e ∧ execNext s = .next (raiseBitIndex e s)) := by
  unfold execNext
  cases hc : s.regs.configured with
  | false => exact .inl ⟨rfl, rfl⟩
  | true =>
    cases ho : s.sampled.rndOk with
    | false => exact .inr (.inl ⟨rfl, rfl, rfl⟩)
    | true =>
      cases hg : generate s.regs s.sampled with
      | ok g => exact .inr (.inr (.inl ⟨g, rfl, rfl, rfl, by simp⟩))
      | error e => exact .inr (.inr (.inr ⟨e, rfl, rfl, rfl, by simp⟩))

/-- Everything an operation can do (spec/45_generator.md R102): answer with the registers a
successful `CFG` or `NEXT` writes or with none written, refuse, or raise. -/
theorem exec_cases (i : Instr) (s : State) :
    (∃ id val, exec i s = .next (respond .ok id val s)) ∨
    (∃ code, code ∈ [Code.configurationError, Code.notConfigured, Code.illegalCommand] ∧
      exec i s = .next (refuse code s)) ∨
    (exec i s = .next (raise .entropyFailure 0 s) ∧ i = .next) ∨
    (∃ e, exec i s = .next (raiseBitIndex e s)) ∨
    (∃ sub cnt node : Field, i = .cfg sub cnt node ∧
      configLegal sub.toNat cnt.toNat node.toNat = true ∧
      exec i s = .next (respond .ok 0 0
        { s with regs := configure sub.toNat cnt.toNat node.toNat s.sampled.opSrc s.regs })) ∨
    (∃ g, i = .next ∧ s.regs.configured = true ∧ s.sampled.rndOk = true ∧
      generate s.regs s.sampled = .ok g ∧
      exec i s = .next (respond .ok g.id 0 { s with regs := commitNext g s.regs })) := by
  cases i with
  | nop => exact .inl ⟨_, _, rfl⟩
  | cfg sub cnt node =>
    rcases execCfg_cases sub cnt node s with ⟨h1, h2⟩ | ⟨_, h2⟩
    · exact .inr (.inr (.inr (.inr (.inl ⟨sub, cnt, node, rfl, h1, h2⟩))))
    · exact .inr (.inl ⟨_, by simp, h2⟩)
  | next =>
    rcases execNext_cases s with ⟨_, h⟩ | ⟨_, _, h⟩ | ⟨g, h1, h2, h3, h4⟩ | ⟨e, _, _, _, h⟩
    · exact .inr (.inl ⟨_, by simp, h⟩)
    · exact .inr (.inr (.inl ⟨h, rfl⟩))
    · exact .inr (.inr (.inr (.inr (.inr ⟨g, rfl, h1, h2, h3, h4⟩))))
    · exact .inr (.inr (.inr (.inl ⟨e, h⟩)))
  | getbit sel index =>
    rcases execGetbit_cases sel index s with ⟨v, _, h⟩ | ⟨e, _, h⟩
    · exact .inl ⟨_, _, h⟩
    · exact .inr (.inr (.inr (.inl ⟨e, h⟩)))
  | setbit sel index v =>
    rcases execSetbit_cases sel index v s with ⟨id, val, h⟩ | ⟨e, h⟩
    · exact .inl ⟨_, _, h⟩
    · exact .inr (.inr (.inr (.inl ⟨e, h⟩)))
  | map l => exact .inl ⟨_, _, rfl⟩
  | stack start len =>
    rcases execStack_cases start len s with ⟨id, pos, h⟩ | ⟨e, h⟩
    · exact .inl ⟨_, _, h⟩
    · exact .inr (.inr (.inr (.inl ⟨e, h⟩)))
  | encdec bits =>
    by_cases h : bits.toNat > Config.wMax
    · exact .inr (.inl ⟨_, by simp, if_pos h⟩)
    · exact .inl ⟨_, _, if_neg h⟩
  | decdec bits =>
    by_cases h : bits.toNat > Config.wMax
    · exact .inr (.inl ⟨_, by simp, if_pos h⟩)
    · exact .inl ⟨_, _, if_neg h⟩
  | getts => exact .inl ⟨_, _, rfl⟩
  | getver => exact .inl ⟨_, _, rfl⟩
  | getvar => exact .inl ⟨_, _, rfl⟩
  | getpay start len =>
    rcases execGetpay_cases start len s with ⟨f, h⟩ | ⟨e, h⟩
    · exact .inl ⟨_, _, h⟩
    · exact .inr (.inr (.inr (.inl ⟨e, h⟩)))
  | rdreg number =>
    cases h : regView s.regs number.toNat with
    | some v =>
      refine .inl ⟨0, v, ?_⟩
      show execRdreg number s = _
      rw [execRdreg, h]
    | none =>
      refine .inr (.inl ⟨.illegalCommand, by simp, ?_⟩)
      show execRdreg number s = _
      rw [execRdreg, h]

/-- Everything a step can do (spec/45_generator.md R126). -/
theorem step_cases (s : State) :
    ((inputsNow s).rst = true ∧ step s = .next (resetEdge (pastEdge s))) ∨
    ((inputsNow s).rst = false ∧ s.regs.fsm = .idle ∧ (inputsNow s).cmdValid = true ∧
      step s = .next (acceptCommand (inputsNow s).data (pastEdge s))) ∨
    ((inputsNow s).rst = false ∧ s.regs.fsm = .idle ∧ (inputsNow s).cmdValid = false ∧
      step s = .next (quietEdge (pastEdge s))) ∨
    ((inputsNow s).rst = false ∧ s.regs.fsm = .fault ∧ step s = .next (quietEdge (pastEdge s))) ∨
    ((inputsNow s).rst = false ∧ s.regs.fsm = .reserved ∧ step s = .fault .reservedFsm) ∨
    ((inputsNow s).rst = false ∧ s.regs.fsm = .busy ∧ ∃ r, decode s.sampled.cmd = .error r ∧
      step s = .next (refuse .illegalCommand (pastEdge s))) ∨
    ((inputsNow s).rst = false ∧ s.regs.fsm = .busy ∧ ∃ i, decode s.sampled.cmd = .ok i ∧
      step s = exec i (pastEdge s)) := by
  unfold step
  cases hr : (inputsNow s).rst with
  | true => exact .inl ⟨rfl, rfl⟩
  | false =>
    right
    cases hf : s.regs.fsm with
    | idle =>
      cases hv : (inputsNow s).cmdValid with
      | true => exact .inl ⟨rfl, rfl, rfl, rfl⟩
      | false => exact .inr (.inl ⟨rfl, rfl, rfl, rfl⟩)
    | fault => exact .inr (.inr (.inl ⟨rfl, rfl, rfl⟩))
    | reserved => exact .inr (.inr (.inr (.inl ⟨rfl, rfl, rfl⟩)))
    | busy =>
      cases hd : decode s.sampled.cmd with
      | error r =>
        refine .inr (.inr (.inr (.inr (.inl ⟨rfl, rfl, r, rfl, ?_⟩))))
        simp [runSampled, hd]
      | ok i =>
        refine .inr (.inr (.inr (.inr (.inr ⟨rfl, rfl, i, rfl, ?_⟩))))
        simp [runSampled, hd]

end Sys2Proof.Machine
end

