-- ==== Sys2Proof/Tests/Slice0.lean ====
section
/-! SUPPORT. Tests of the model against the spec's own words and vectors, and a witness for the
hypotheses of each statement. Words are written out from spec/30_encoding.md R52 and R58, expected
results are the spec's examples (R70 to R125) and spec/95_test_vectors.md. -/

namespace Sys2Proof.Tests

-- One thread for all of this file's kernel evaluations.
set_option Elab.async false

open Sys2Proof Sys2Proof.Machine Sys2Proof.Safety

/-! ### Well-formedness: each check refuses an ill-formed term -/

theorem test_wf_encdec_over_64 : (Instr.encdec 65).wellFormed = false := by decide
theorem test_wf_encdec_at_64 : (Instr.encdec 64).wellFormed = true := by decide
theorem test_wf_decdec_over_64 : (Instr.decdec 65).wellFormed = false := by decide
theorem test_wf_decdec_at_64 : (Instr.decdec 64).wellFormed = true := by decide
theorem test_wf_rdreg_over_7 : (Instr.rdreg 8).wellFormed = false := by decide
theorem test_wf_rdreg_at_7 : (Instr.rdreg 7).wellFormed = true := by decide

/-! ### Decoding: a word of every operation, and a word of every reason to reject -/

theorem test_decode_nop : decode 0x00000000 = .ok .nop := rfl
/-- The word of R103's example. -/
theorem test_decode_cfg : decode 0x100C0806 = .ok (.cfg 12 8 6) := rfl
theorem test_decode_next : decode 0x20000000 = .ok .next := rfl
theorem test_decode_getbit_id : decode 0x307F0000 = .ok (.getbit .opId 127) := rfl
theorem test_decode_getbit_src : decode 0x383F0000 = .ok (.getbit .opSrc 63) := rfl
theorem test_decode_setbit_one : decode 0x40300001 = .ok (.setbit .opId 48 true) := rfl
theorem test_decode_setbit_src_zero : decode 0x48050000 = .ok (.setbit .opSrc 5 false) := rfl
theorem test_decode_map : decode 0x500C0000 = .ok (.map 12) := rfl
theorem test_decode_stack : decode 0x600A0400 = .ok (.stack 10 4) := rfl
theorem test_decode_encdec : decode 0x70001000 = .ok (.encdec 16) := rfl
theorem test_decode_decdec : decode 0x80001000 = .ok (.decdec 16) := rfl
theorem test_decode_getts : decode 0x90000000 = .ok .getts := rfl
theorem test_decode_getver : decode 0xA0000000 = .ok .getver := rfl
theorem test_decode_getvar : decode 0xB0000000 = .ok .getvar := rfl
theorem test_decode_getpay : decode 0xC0124400 = .ok (.getpay 18 68) := rfl
theorem test_decode_rdreg : decode 0xD0070000 = .ok (.rdreg 7) := rfl

theorem test_reject_reserved_opcode : decode 0xE0000000 = .error .reservedOpcode := rfl
theorem test_reject_reserved_field : decode 0x01000000 = .error .reservedField := rfl
theorem test_reject_unused_field : decode 0x40300002 = .error .unusedField := rfl

/-- R63: the pseudo-operations are spellings of real commands. -/
theorem test_encode_pseudo : encode .getPayload = 0xC0005600
    ∧ encode (.newGenerator 12 8 6) = 0x100C0806 := by decide

/-! ### One step of every operation -/

/-- The buffers and the second of spec/95_test_vectors.md section 1. -/
def id1 : Ident := 0x06553F1009F8756FBEDCBA9876543210#128
def rnd1 : Ident := 0x0123456789ABCDEFFEDCBA9876543210#128
def rndF : Ident := 0xFFFFFFFFFFFFFFFFFFFFFFFFFFFFFFFF#128

/-- Ports that carry an identifier and a source operand. -/
def ports (cmd : Command) (id : Ident) (src : Source) : Sampled :=
  { Sampled.reset with cmd := cmd, opId := id, opSrc := src }

/-- Ports of a `NEXT`. -/
def nextPorts (sec : BitVec 64) (nsec : BitVec 30) (rnd : Ident) (ok : Bool) : Sampled :=
  { Sampled.reset with cmd := 0x20000000, nowSec := sec, nowNsec := nsec, rnd := rnd, rndOk := ok }

/-- A core with the command `x` in flight and registers `r` besides. -/
def inFlight (r : Regs) (x : Sampled) : State :=
  { State.reset with regs := { r with fsm := .busy }, sampled := x }

/-- The registers after R103's example. -/
def configuredRegs : Regs := configure 12 8 6 0x2A Regs.reset

/-- The registers after R115's example, the first call. -/
def calledRegs : Regs := { configuredRegs with prevSubsec := 0x1F9, prevValid := true, cursor := 18 }

/-- The state an outcome goes on with. -/
def after : Host.Outcome State Fault Refusal → State
  | .next t => t
  | .fault _ => State.reset
  | .refused _ => State.reset

def goesOn : Host.Outcome State Fault Refusal → Bool
  | .next _ => true
  | .fault _ => false
  | .refused _ => false

theorem eq_next_after {o : Host.Outcome State Fault Refusal} (h : goesOn o = true) :
    o = .next (after o) := by
  cases o <;> first | rfl | cases h

/-- The outcome is a response with these numbers. -/
def answers (o : Host.Outcome State Fault Refusal) (status : BitVec 4) (id : Ident)
    (val : BitVec 64) : Bool :=
  goesOn o && decide ((after o).rsp = some { status := status, id := id, val := val })

/-- The outcome is the fatal fault with this record. -/
def faults (o : Host.Outcome State Fault Refusal) (cause : BitVec 4) (finfo : BitVec 17) : Bool :=
  goesOn o && (after o).faultOut && decide ((after o).rsp = none ∧ (after o).causeOut = cause
    ∧ (after o).finfoOut = finfo)

def run1 (i : Instr) (id : Ident) (src : Source) : Host.Outcome State Fault Refusal :=
  exec i (inFlight Regs.reset (ports 0 id src))

theorem test_nop : answers (run1 .nop id1 7) 0 0 0 = true := by decide +kernel

theorem test_cfg_example :
    (after (run1 (.cfg 12 8 6) 0 0x2A)).regs = { configuredRegs with fsm := .idle } := by
  decide +kernel
/-- R103: `a` = 48, `b` = 16, `c` = 23 is refused. -/
theorem test_cfg_sum_87_refused : answers (run1 (.cfg 48 16 23) 0 0) 2 0 0 = true := by
  decide +kernel

/-- R115's example. -/
theorem test_next_first_call :
    answers (exec .next (inFlight configuredRegs (nextPorts 1700000000 123456789 rnd1 true)))
      0 id1 0 = true := by decide +kernel
/-- Program P1, the second call: a tie. -/
theorem test_next_tie :
    answers (exec .next (inFlight calledRegs (nextPorts 1700000000 123456789 rndF true)))
      0 0x06553F1009F878059FFFFFFFFFFFFFFF#128 0 = true := by decide +kernel

/-- R70's example. -/
theorem test_getbit_last : answers (run1 (.getbit .opId 127) 1 0) 0 0 1 = true := by decide +kernel
/-- R70: `FINFO[15:0]` = 64 and `FINFO[16]` = 1. -/
theorem test_getbit_src_64_faults : faults (run1 (.getbit .opSrc 64) 0 0) 4 0x10040 = true := by
  decide +kernel

/-- R71's example. -/
theorem test_setbit_48 : answers (run1 (.setbit .opId 48 true) 0 0)
    0 0x00000000000080000000000000000000#128 0 = true := by decide +kernel
theorem test_setbit_128_faults : faults (run1 (.setbit .opId 128 true) 0 0) 4 128 = true := by
  decide +kernel

/-- R75's corners. -/
theorem test_map_12 : answers (run1 (.map 12) 0 0) 0 0 52 = true := by decide +kernel
theorem test_map_255 : answers (run1 (.map 255) 0 0) 0 0 297 = true := by decide +kernel

/-- R79's example. -/
theorem test_stack_example : answers (run1 (.stack 0 12) 0 0x1F9)
    0 0x0000000009F800000000000000000000#128 12 = true := by decide +kernel
theorem test_stack_source_fault : faults (run1 (.stack 0 65) 0 0) 4 0x10040 = true := by
  decide +kernel

/-- R87's example. -/
theorem test_encdec_example : answers (run1 (.encdec 16) 0 123456789) 0 0 0x1F9A = true := by
  decide +kernel
/-- R87: `b` = 0 gives 0 for every `n`. -/
theorem test_encdec_zero_width : answers (run1 (.encdec 0) 0 999999999) 0 0 0 = true := by
  decide +kernel

/-- R88's example. -/
theorem test_decdec_example : answers (run1 (.decdec 16) 0 0x1F9A) 0 0 0x1F9A = true := by
  decide +kernel
theorem test_decdec_65_illegal : answers (run1 (.decdec 65) 0 1) 6 0 0 = true := by decide +kernel

/-- R93's example. -/
theorem test_getts_example : answers (run1 .getts id1 0) 0 0 1700000000 = true := by decide +kernel
/-- R94's example. -/
theorem test_getver_example : answers (run1 .getver id1 0) 0 0 7 = true := by decide +kernel
/-- R95's example. -/
theorem test_getvar_example : answers (run1 .getvar id1 0) 0 0 2 = true := by decide +kernel

/-- R96's example. -/
theorem test_getpay_example : answers (run1 (.getpay 0 12) id1 0) 0 0x9F8 0 = true := by
  decide +kernel
theorem test_getpay_past_end_faults : faults (run1 (.getpay 85 2) id1 0) 4 128 = true := by
  decide +kernel

/-- R125's example. -/
theorem test_rdreg_status : answers (exec (.rdreg 7) (inFlight calledRegs (ports 0 0 0))) 0 0 3
    = true := by decide +kernel
theorem test_rdreg_8_illegal : answers (run1 (.rdreg 8) 0 0) 6 0 0 = true := by decide +kernel

/-! ### The step around an operation -/

/-- R51: from reset, an offered `MAP` is accepted at one step and answered at the next. -/
theorem test_accept_then_answer :
    answers (step (after (step { State.reset with inputs := offered (ports 0x500C0000 0 0) })))
      0 0 52 = true := by decide +kernel

/-- R134: a reserved operation code is refused. -/
theorem test_illegal_word : answers (step (inFlight Regs.reset (ports 0xF0000000 0 0))) 6 0 0
    = true := by decide +kernel

/-- R150: one reset edge leaves FAULT. -/
theorem test_reset_leaves_fault :
    (after (step { State.reset with
      regs := { calledRegs with fsm := .fault, cause := 3 }
      inputs := [{ Inputs.quiet with rst := true }] })).regs = Regs.reset := by decide +kernel

/-- The word placed by `withFetchWord` is run by the very next step. -/
theorem test_fetch_word :
    answers (step (State.reset.withFetchWord 32 0x500C0000)) 0 0 52 = true := by decide +kernel

/-- R62, R75's example as a trace line. -/
theorem test_trace_map : traceLine (.map 12) (ports 0x500C0000 0 0) (after (run1 (.map 12) 0 0))
    = "MAP l=12 => OK abs=52" := by decide +kernel

/-! ### Witnesses: the hypotheses of each statement can be met -/

/-- A core at rest whose host offers the commands `xs`. -/
def atRest (xs : List Sampled) : State := { State.reset with inputs := xs.flatMap offered }

theorem witness_EncodeOfDecodedWordIsTheWord : ∃ (w : Command) (i : Instr), decode w = .ok i :=
  ⟨0x600A0400, .stack 10 4, rfl⟩

theorem witness_DecoderMatchesOpcodeTable :
    (⟨0x3, 0x30000000, 0xF700FFFF⟩ : OpcodeRow) ∈ opcodeTable ∧
      0x387F0000#32 &&& 0xF700FFFF#32 = 0x30000000#32 := by decide

theorem witness_IllegalWordsAreRefused :
    (inFlight Regs.reset (ports 0xD0080000 0 0)).regs.fsm = .busy ∧
    (inputsNow (inFlight Regs.reset (ports 0xD0080000 0 0))).rst = false ∧
    IllegalWord 0xD0080000 ∧ ¬ IllegalWord 0xD0070000 ∧ IllegalWord 0x70004100
      ∧ ¬ IllegalWord 0x70004000 := by
  refine ⟨rfl, rfl, ?_, ?_, ?_, ?_⟩ <;> unfold IllegalWord UnusedFieldNonzero <;> decide

theorem witness_StepRunsDecodedInstruction : ∃ (s : State) (i : Instr), s.regs.fsm = .busy ∧
    (inputsNow s).rst = false ∧ decode s.sampled.cmd = .ok i :=
  ⟨inFlight Regs.reset (ports 0x500C0000 0 0), .map 12, rfl, rfl, rfl⟩

theorem witness_PlacedWordRunsNext : ∃ (nbits w : Nat) (i : Instr),
    decodeTableWord nbits w = some i := ⟨32, 0xD0070000, .rdreg 7, by decide +kernel⟩

theorem witness_AcceptanceSamplesThePorts : ∃ (s : State) (p : Inputs) (rest : List Inputs),
    s.regs.fsm = .idle ∧ s.inputs = p :: rest ∧ p.rst = false ∧ p.cmdValid = true :=
  ⟨atRest [ports 0x20000000 0 0], _, _, rfl, rfl, rfl, rfl⟩

theorem witness_CommandRunsOnSampledInputs :
    ∃ (s : State) (p q : Inputs) (rest : List Inputs) (i : Instr), s.regs.fsm = .idle ∧
      s.inputs = p :: q :: rest ∧ p.rst = false ∧ p.cmdValid = true ∧ q.rst = false ∧
      decode p.data.cmd = .ok i :=
  ⟨atRest [ports 0x600A0400 0 5], _, _, _, .stack 10 4, rfl, rfl, rfl, rfl, rfl, rfl⟩

theorem witness_RunIsFoldOfCommands : ∃ (xs : List Sampled) (s : State), xs.length = 2 ∧
    s.regs.fsm = .idle ∧ s.inputs = xs.flatMap offered :=
  ⟨[ports 0x30FF0000 0 0, ports 0x500C0000 0 0],
    atRest [ports 0x30FF0000 0 0, ports 0x500C0000 0 0], rfl, rfl, rfl⟩

theorem witness_ResetEdgeFromEveryState : ∃ s : State, s.regs.fsm = .busy ∧
    (inputsNow s).rst = true :=
  ⟨{ inFlight calledRegs (ports 0 0 0) with inputs := [{ Inputs.quiet with rst := true }] },
    rfl, rfl⟩

/-- One state for each row of R126's table. -/
theorem witness_EveryStepFollowsTransitionTable :
    goesOn (step { State.reset with inputs := [{ Inputs.quiet with rst := true }] }) = true ∧
    goesOn (step State.reset) = true ∧ goesOn (step (atRest [ports 0 0 0])) = true ∧
    answers (step (inFlight Regs.reset (ports 0 0 0))) 0 0 0 = true ∧
    answers (step (inFlight Regs.reset (nextPorts 0 0 0 true))) 5 0 0 = true ∧
    faults (step (inFlight configuredRegs (nextPorts 0 0 0 false))) 3 0 = true ∧
    goesOn (step { State.reset with regs := { Regs.reset with fsm := .fault } }) = true := by
  decide +kernel

theorem witness_EveryAcceptedCommandEnds : ∃ s : State, s.regs.fsm = .busy ∧
    (inputsNow s).rst = false := ⟨inFlight calledRegs (nextPorts 1 2 3 true), rfl, rfl⟩

theorem witness_ResponsesCarryRecoverableCodes : ∃ (s t : State) (r : Response),
    step s = .next t ∧ t.rsp = some r ∧ r.status ≠ 0 :=
  ⟨inFlight Regs.reset (nextPorts 0 0 0 true), _, ⟨5, 0, 0⟩, rfl, rfl, by decide⟩

/-- Every clause: no entropy, and the identifier and source indices at their bounds. -/
theorem witness_FaultEntryRecordsTheCause :
    faults (step (inFlight configuredRegs (nextPorts 0 0 0 false))) 3 0 = true ∧
    faults (step (inFlight Regs.reset (ports 0x30800000 0 0))) 4 (identifierFinfo 128) = true ∧
    faults (step (inFlight Regs.reset (ports 0xC0FF0100 0 0))) 4 (identifierFinfo 297) = true ∧
    faults (step (inFlight Regs.reset (ports 0x38400000 0 0))) 4 (sourceFinfo 64) = true ∧
    faults (step (inFlight Regs.reset (ports 0x38FF0000 0 0))) 4 (sourceFinfo 255) = true := by
  decide +kernel

theorem witness_FaultIsStickyUntilReset : ∃ s : State, s.regs.fsm = .fault ∧ s.inputs.length = 2 ∧
    ∀ p ∈ s.inputs, p.rst = false :=
  ⟨{ atRest [ports 0x20000000 0 0] with regs := { Regs.reset with fsm := .fault, cause := 3 } },
    by decide, by decide, by decide⟩

theorem witness_EveryStepKeepsTheInvariant :
    Inv (inFlight calledRegs (nextPorts 1 2 3 true)).regs ∧
      goesOn (step (inFlight calledRegs (nextPorts 1 2 3 true))) = true := by decide +kernel

theorem witness_UnitAccessWritesNoRegister :
    unitAccess (.stack 0 12) = true ∧ (∃ n, Instr.rdreg 7 = .rdreg n) := ⟨rfl, 7, rfl⟩

theorem witness_UnitAccessReadsNoRegister : ∃ (i : Instr) (s u : State), unitAccess i = true ∧
    s.sampled = u.sampled ∧ s.regs ≠ u.regs :=
  ⟨.getpay 0 86, inFlight Regs.reset (ports 0 id1 0), inFlight calledRegs (ports 0 id1 0), rfl, rfl,
    by decide⟩

theorem witness_OnlyCfgAndResetWriteConfiguration : ∃ s t : State, step s = .next t ∧
    (inputsNow s).rst = false ∧ ¬ (t.regs.configured = s.regs.configured) :=
  ⟨inFlight Regs.reset (ports 0x100C0806 0 0x2A), _, rfl, rfl, by decide⟩

theorem witness_NopAnswersOk :
    (inFlight Regs.reset (ports 0x00000001 0 0)).sampled.cmd.extractLsb' 28 4 = 0#4 ∧
    (inFlight Regs.reset (ports 0x00000001 0 0)).sampled.cmd ≠ 0 := by decide

/-- The last good and the first bad index of both buffers. -/
theorem witness_GetbitReadsOneBit :
    answers (run1 (.getbit .opId 127) id1 0) 0 0 0 = true ∧
    faults (run1 (.getbit .opId 128) id1 0) 4 (identifierFinfo 128) = true ∧
    answers (run1 (.getbit .opSrc 63) 0 1) 0 0 1 = true ∧
    faults (run1 (.getbit .opSrc 64) 0 1) 4 (sourceFinfo 64) = true := by decide +kernel

theorem witness_SetbitReplacesOneBit :
    answers (run1 (.setbit .opId 127 true) 0 0) 0 1 0 = true ∧
    faults (run1 (.setbit .opId 255 true) 0 0) 4 (identifierFinfo 255) = true ∧
    answers (run1 (.setbit .opSrc 63 false) 0 3) 0 0 2 = true ∧
    faults (run1 (.setbit .opSrc 64 false) 0 3) 4 (sourceFinfo 64) = true := by decide +kernel

theorem witness_BitPrimitiveLaws : ∃ (L i j : Nat), (L = 16 ∨ L = 8) ∧ i < 8 * L ∧ j < 8 * L ∧
    j ≠ i ∧ getBit .source (3 : Source) 63 = .ok true :=
  ⟨8, 63, 0, by decide, by decide, by decide, by decide, rfl⟩

/-- Both thresholds from both sides, and both ends of the payload. -/
theorem witness_AbsoluteIsThePayloadBijection :
    absolute 11 = 47 ∧ absolute 12 = 52 ∧ absolute 23 = 63 ∧ absolute 24 = 66 ∧ absolute 85 = 127 ∧
      absolute 86 = 128 := by decide

/-- A full-width field that ends the payload, and length 0 from outside it. -/
theorem witness_StackWritesReversedField :
    ((64 : Field).toNat ≤ 64 ∧ (22 : Field).toNat + (64 : Field).toNat ≤ 86) ∧
    answers (run1 (.stack 255 0) id1 5) 0 id1 255 = true := by decide +kernel

/-- Each clause at its boundary. -/
theorem witness_StackFaultsAtFirstBadAccess :
    faults (run1 (.stack 86 1) 0 0) 4 (identifierFinfo 128) = true ∧
    faults (run1 (.stack 23 64) 0 0) 4 (identifierFinfo 128) = true ∧
    faults (run1 (.stack 87 1) 0 0) 4 (identifierFinfo 129) = true ∧
    faults (run1 (.stack 22 65) 0 0) 4 (sourceFinfo 64) = true := by decide +kernel

theorem witness_GetpayReadsPayload :
    answers (run1 (.getpay 85 1) 1 0) 0 1 0 = true ∧ answers (run1 (.getpay 255 0) 1 0) 0 0 0 = true ∧
    faults (run1 (.getpay 0 87) 1 0) 4 (identifierFinfo 128) = true ∧
    faults (run1 (.getpay 87 1) 1 0) 4 (identifierFinfo 129) = true := by decide +kernel

theorem witness_GetpayOfStackIsReversal : ∃ (start len : Field) (id : Ident) (u : State),
    len.toNat ≤ 64 ∧ start.toNat + len.toNat ≤ 86 ∧
    answers (run1 (.stack start len) 0 0x1F9) 0 id 12 = true ∧ u.sampled.opId = id :=
  ⟨0, 12, 0x0000000009F800000000000000000000#128,
    inFlight Regs.reset (ports 0 0x0000000009F800000000000000000000#128 0),
    by decide, by decide, by decide +kernel, rfl⟩

/-- The two forms of the digit count, and the widths 64 and 65. -/
theorem witness_EncdecIsTheExactQuotient :
    ((64 : Field).toNat ≤ 64 ∧ (9 : Source).toNat ≤ 9) ∧
    (10 ^ (2 - 1) ≤ (10 : Source).toNat ∧ (10 : Source).toNat < 10 ^ 2) ∧
    answers (run1 (.encdec 65) 0 1) 6 0 0 = true := by decide +kernel

theorem witness_EncodingOrderFollowsDigitStrings : (10 ≤ 99 ∧ digits10 10 = digits10 99) ∧
    encodeDecimal 5 8 = 128 ∧ encodeDecimal (5 * 10 ^ 2) 8 = 128 := by decide +kernel

theorem witness_RoundTripLosesLessThanOneStep : ∃ x : Nat, 100000000 ≤ x ∧ x ≤ 999999999 :=
  ⟨100000000, by decide, by decide⟩

theorem witness_DecdecAnswersTheNumerator : (64 : Field).toNat ≤ 64 ∧ 64 < (65 : Field).toNat := by
  decide

/-- Legal at the bounds, and each reason to refuse. -/
theorem witness_CfgConstructsOrRefuses :
    answers (run1 (.cfg 64 22 0) 0 0) 0 0 0 = true ∧ answers (run1 (.cfg 48 16 22) 0 0) 0 0 0 = true ∧
    answers (run1 (.cfg 65 0 0) 0 0) 2 0 0 = true ∧ answers (run1 (.cfg 0 128 0) 0 0) 2 0 0 = true ∧
    answers (run1 (.cfg 0 0 65) 0 0) 2 0 0 = true := by decide +kernel

theorem witness_RdregReadsNumberedRegisters : 7 < (8 : Field).toNat := by decide

theorem witness_NextChecksItsPreconditions :
    answers (exec .next (inFlight Regs.reset (nextPorts 0 1 rnd1 false))) 5 0 0 = true ∧
    faults (exec .next (inFlight configuredRegs (nextPorts 0 1 rnd1 false))) 3 0 = true := by
  decide +kernel

/-- A call of R115's example: the state, what it answers, and the accessor's state after it. -/
def exampleCall : State := inFlight configuredRegs (nextPorts 1700000000 123456789 rnd1 true)

theorem exampleCall_next :
    exec .next exampleCall = .next (after (exec .next exampleCall)) :=
  eq_next_after (by decide +kernel)

theorem witness_NextAssemblesTheIdentifier : exampleCall.regs.configured = true ∧
    LegalConfiguration exampleCall.regs ∧ exampleCall.sampled.rndOk = true := by decide

theorem witness_IdentifierReadsBack : ∃ (s t u : State) (r : Response), exec .next s = .next t ∧
    t.rsp = some r ∧ r.status = 0 ∧ u.sampled.opId = r.id :=
  ⟨exampleCall, _, inFlight Regs.reset (ports 0 id1 0), ⟨0, id1, 0⟩, exampleCall_next,
    by decide +kernel, rfl, rfl⟩

/-- The call of the second after, on another core. -/
def laterCall : State := inFlight configuredRegs (nextPorts 1700000001 123456789 rnd1 true)

theorem laterCall_next : exec .next laterCall = .next (after (exec .next laterCall)) :=
  eq_next_after (by decide +kernel)

theorem witness_TimestampsOrderIdentifiers : ∃ (s u t v : State) (r q : Response),
    exec .next s = .next t ∧ t.rsp = some r ∧ r.status = 0 ∧
    exec .next u = .next v ∧ v.rsp = some q ∧ q.status = 0 ∧
    s.sampled.nowSec.toNat % 2 ^ 36 < u.sampled.nowSec.toNat % 2 ^ 36 :=
  ⟨exampleCall, laterCall, _, _, ⟨0, id1, 0⟩,
    ⟨0, 0x06553F1019F8756FBEDCBA9876543210#128, 0⟩, exampleCall_next, by decide +kernel, rfl,
    laterCall_next, by decide +kernel, rfl, by decide⟩

/-- Program P1: the second call follows the first, here in another second. -/
theorem witness_ConsecutiveTiesCountUp : ∃ (s t u : State) (r : Response),
    s.regs.configured = true ∧ LegalConfiguration s.regs ∧ exec .next s = .next t ∧
    t.rsp = some r ∧ r.status = 0 ∧ u.regs = { t.regs with fsm := .busy } ∧
    u.sampled.rndOk = true ∧
    encodeDecimal u.sampled.nowNsec.toNat s.regs.cfgSubsecBits.toNat =
      encodeDecimal s.sampled.nowNsec.toNat s.regs.cfgSubsecBits.toNat :=
  ⟨exampleCall, _, inFlight (after (exec .next exampleCall)).regs
      (nextPorts 1700000009 123456999 rndF true), ⟨0, id1, 0⟩, by decide, by decide,
    exampleCall_next, by decide +kernel, rfl, rfl, rfl, by decide +kernel⟩

theorem witness_FirstCallIsNeverATie : ∃ (s t u : State) (r : Response) (sub cnt node : Field),
    exec (.cfg sub cnt node) s = .next t ∧ t.rsp = some r ∧ r.status = 0 ∧
    u.regs = { t.regs with fsm := .busy } ∧ u.sampled.rndOk = true :=
  ⟨inFlight Regs.reset (ports 0 0 0x2A), _,
    inFlight (after (run1 (.cfg 12 8 6) 0 0x2A)).regs (nextPorts 0 0 rnd1 true), ⟨0, 0, 0⟩, 12, 8, 6,
    eq_next_after (by decide +kernel), rfl, rfl, rfl, rfl⟩

/-- A generator without a sub-second width that has been called once. -/
theorem witness_WithoutSubsecondWidthLaterCallsTie : ∃ s : State, Inv s.regs ∧
    s.regs.configured = true ∧ s.sampled.rndOk = true ∧ s.regs.cfgSubsecBits = 0 ∧
    s.regs.prevValid = true :=
  ⟨inFlight { configure 0 2 0 0 Regs.reset with prevValid := true } (nextPorts 1 0 0 true),
    by decide, rfl, rfl, rfl, rfl⟩

/-- Two calls that differ in the high part of the second and in every unused random bit. -/
theorem witness_NextDependsOnNothingElse : ∃ s u t : State, exec .next s = .next t ∧
    u.regs = s.regs ∧ u.sampled.nowSec.toNat % 2 ^ 36 = s.sampled.nowSec.toNat % 2 ^ 36 ∧
    u.sampled.nowNsec = s.sampled.nowNsec ∧ u.sampled.rndOk = s.sampled.rndOk ∧
    u.sampled.rnd ≠ s.sampled.rnd ∧
    ∀ l, t.regs.cursor.toNat ≤ l → l < 86 →
      u.sampled.rnd.getMsbD (absolute l) = s.sampled.rnd.getMsbD (absolute l) :=
  ⟨exampleCall, inFlight configuredRegs
      (nextPorts (1700000000 + 2 ^ 40) 123456789 (rnd1 ^^^ (1#128 <<< 127)) true), _,
    exampleCall_next, rfl, by decide, rfl, rfl, by decide, by
      have h : ∀ l < 86, (rnd1 ^^^ (1#128 <<< 127)).getMsbD (absolute l) =
          rnd1.getMsbD (absolute l) := by decide +kernel
      exact fun l _ hl => h l hl⟩

/-- Program P1 before its second call, and its third call. -/
theorem witness_LaterTiedIdentifierComparesBelow :
    let s := inFlight calledRegs (nextPorts 1700000000 123456789 rndF true)
    s.regs.configured = true ∧ LegalConfiguration s.regs ∧ s.sampled.rndOk = true ∧
    2 ≤ s.regs.cfgCounterBits.toNat ∧ s.regs.prevValid = true ∧ s.regs.counter = 0 ∧
    s.regs.prevSubsec =
      BitVec.ofNat 64 (encodeDecimal s.sampled.nowNsec.toNat s.regs.cfgSubsecBits.toNat) ∧
    goesOn (exec .next s) = true ∧
    (let u := inFlight (after (exec .next s)).regs (nextPorts 1700000000 123456789 0 true)
     u.sampled.rndOk = true ∧ u.sampled.nowNsec = s.sampled.nowNsec ∧
       u.sampled.nowSec.toNat % 2 ^ 36 = s.sampled.nowSec.toNat % 2 ^ 36) := by decide +kernel

end Sys2Proof.Tests
end

section
/-! The invariants of the state (spec/10_state.md R29, R12) and who writes the configuration registers
(R13 to R17): one lemma per update of the registers, then one per operation and one per step. -/

namespace Sys2Proof.Machine

open Sys2Proof.Safety

/-! ### What a completed `NEXT` records -/

/-- The new cursor stays within the payload (R115, R81). -/
theorem generate_cur_le {r : Regs} {x : Sampled} {g : Generated} (h : generate r x = .ok g) :
    g.cur ≤ 86 := by
  obtain ⟨hfit, rfl⟩ := generate_ok r x g h
  exact fieldsFit_cur_le r _ hfit

/-- The recorded encoding fits the configured width (R89, R108). -/
theorem generate_enc_lt {r : Regs} {x : Sampled} {g : Generated} (h : generate r x = .ok g) :
    g.enc.toNat < 2 ^ r.cfgSubsecBits.toNat := by
  obtain ⟨⟨hsub, -, -⟩, rfl⟩ := generate_ok r x g h
  show (subsecEncoding r x).toNat < _
  rw [subsecEncoding_eq, encodeDecimal_toNat _ _ (by omega)]
  exact encodeDecimal_lt _ _

/-- Without a tie the new counter is 0 (R109). -/
theorem generate_ctr_of_not_tie {r : Regs} {x : Sampled} {g : Generated}
    (h : generate r x = .ok g) (htie : g.tie = false) : g.ctr = 0 := by
  obtain ⟨-, rfl⟩ := generate_ok r x g h
  have htie' : tieBreak r (subsecEncoding r x) = false := htie
  show nextCounter r (tieBreak r (subsecEncoding r x)) = 0
  rw [htie']; rfl

/-- The legality check of `CFG`, as the bounds it stands for (R104). -/
theorem configLegal_iff {sub cnt node : Nat} :
    configLegal sub cnt node = true ↔
      sub ≤ 64 ∧ cnt ≤ 64 ∧ node ≤ 64 ∧ sub + cnt + node ≤ 86 :=
  decide_eq_true_iff

/-! ### The invariant, update by update -/

theorem inv_reset : Inv Regs.reset := by decide

/-- Outside `FAULT` the core may move between IDLE and BUSY: `CAUSE` is 0 before and after. -/
theorem inv_setFsm {r : Regs} {f : Fsm} (hinv : Inv r) (hr : r.fsm ≠ .fault)
    (hfault : f ≠ .fault) (hreserved : f ≠ .reserved) : Inv { r with fsm := f } := by
  obtain ⟨hlegal, hzero, hcursor, hcause, hhistory, hprev, hcounter, -⟩ := hinv
  exact ⟨hlegal, hzero, hcursor, ⟨fun hc => absurd (hcause.mp hc) hr, fun h => absurd h hfault⟩,
    hhistory, hprev, hcounter, hreserved⟩

/-- Fault entry with a code other than 0 (R136). -/
theorem inv_enterFault {r : Regs} {cause : BitVec 4} (info : BitVec 17) (hinv : Inv r)
    (hc : cause ≠ 0) : Inv { r with fsm := .fault, cause := cause, finfo := info } := by
  obtain ⟨hlegal, hzero, hcursor, -, hhistory, hprev, hcounter, -⟩ := hinv
  exact ⟨hlegal, hzero, hcursor, ⟨fun _ => rfl, fun _ => hc⟩, hhistory, hprev, hcounter, nofun⟩

/-- A legal `CFG` (R103): legal widths are below `2^7`, so the registers hold them unchanged. -/
theorem inv_configure {r : Regs} {sub cnt node : Nat} (value : Source) (hinv : Inv r)
    (hlegal : configLegal sub cnt node = true) : Inv (configure sub cnt node value r) := by
  obtain ⟨hsub, hcnt, hnode, hsum⟩ := configLegal_iff.mp hlegal
  obtain ⟨-, -, -, hcause, -, -, -, hreserved⟩ := hinv
  refine ⟨fun _ => ?_, nofun, Nat.zero_le _, hcause, fun _ => ⟨rfl, rfl, rfl⟩, nofun,
    fun _ => rfl, hreserved⟩
  simp only [configure_cfgSubsecBits, configure_cfgCounterBits, configure_cfgNodeBits,
    BitVec.toNat_ofNat]
  omega

/-- A completed `NEXT` (R115). -/
theorem inv_commitNext {r : Regs} {x : Sampled} {g : Generated} (hinv : Inv r)
    (hg : generate r x = .ok g) : Inv (commitNext g r) := by
  obtain ⟨hlegal, hzero, -, hcause, -, -, -, hreserved⟩ := hinv
  have hcur := generate_cur_le hg
  have henc := generate_enc_lt hg
  have hctr := generate_ctr_of_not_tie hg
  refine ⟨hlegal, hzero, ?_, hcause, nofun, fun _ => henc, hctr, hreserved⟩
  simp only [CursorInPayload, commitNext_cursor, BitVec.toNat_ofNat]
  omega

/-! ### The invariant, operation by operation and step by step -/

/-- An answer given from BUSY, whatever registers were written before it. -/
theorem inv_respond {s : State} (code : Code) (id : Ident) (val : BitVec 64) (hinv : Inv s.regs)
    (hbusy : s.regs.fsm = .busy) : Inv (respond code id val s).regs :=
  inv_setFsm hinv (by simp [hbusy]) nofun nofun

theorem exec_keeps_inv {i : Instr} {s t : State} (hinv : Inv s.regs) (hbusy : s.regs.fsm = .busy)
    (h : exec i s = .next t) : Inv t.regs := by
  rcases exec_cases i s with ⟨id, val, he⟩ | ⟨code, -, he⟩ | ⟨he, -⟩ | ⟨e, he⟩ |
    ⟨sub, cnt, node, -, hlegal, he⟩ | ⟨g, -, -, -, hg, he⟩ <;>
    cases he.symm.trans h
  · exact inv_respond _ _ _ hinv hbusy
  · exact inv_respond _ _ _ hinv hbusy
  · exact inv_enterFault _ hinv (by decide)
  · exact inv_enterFault _ hinv (by decide)
  · exact inv_respond _ _ _ (inv_configure _ hinv hlegal) hbusy
  · exact inv_respond _ _ _ (inv_commitNext hinv hg) hbusy

theorem step_keeps_inv {s t : State} (hinv : Inv s.regs) (h : step s = .next t) : Inv t.regs := by
  rcases step_cases s with ⟨-, he⟩ | ⟨-, hidle, -, he⟩ | ⟨-, -, -, he⟩ | ⟨-, -, he⟩ | ⟨-, -, he⟩ |
    ⟨-, hbusy, _, -, he⟩ | ⟨-, hbusy, i, -, he⟩ <;> rw [he] at h
  · cases h; exact inv_reset
  · cases h; exact inv_setFsm hinv (by simp [hidle]) nofun nofun
  · cases h; exact hinv
  · cases h; exact hinv
  · cases h
  · cases h; exact inv_respond (s := pastEdge s) _ _ _ hinv hbusy
  · exact exec_keeps_inv (s := pastEdge s) hinv hbusy h

/-! ### The configuration registers -/

/-- `t` holds the configuration of `s`: `CONFIGURED` and the four `CFG` registers (R13 to R17). -/
abbrev SameConfiguration (t s : Regs) : Prop :=
  t.configured = s.configured ∧ t.cfgSubsecBits = s.cfgSubsecBits ∧
    t.cfgCounterBits = s.cfgCounterBits ∧ t.cfgNodeBits = s.cfgNodeBits ∧
    t.cfgNodeValue = s.cfgNodeValue

theorem sameConfiguration_refl (r : Regs) : SameConfiguration r r := ⟨rfl, rfl, rfl, rfl, rfl⟩

/-- An operation either leaves the configuration alone or is a legal `CFG` (R102, R103). -/
theorem exec_configuration {i : Instr} {s t : State} (h : exec i s = .next t) :
    SameConfiguration t.regs s.regs ∨ ∃ sub cnt node : Field, i = .cfg sub cnt node ∧
      configLegal sub.toNat cnt.toNat node.toNat = true := by
  rcases exec_cases i s with ⟨id, val, he⟩ | ⟨code, -, he⟩ | ⟨he, -⟩ | ⟨e, he⟩ |
    ⟨sub, cnt, node, hi, hlegal, he⟩ | ⟨g, -, -, -, -, he⟩ <;> cases he.symm.trans h
  · exact .inl (sameConfiguration_refl _)
  · exact .inl (sameConfiguration_refl _)
  · exact .inl (sameConfiguration_refl _)
  · exact .inl (sameConfiguration_refl _)
  · exact .inr ⟨sub, cnt, node, hi, hlegal⟩
  · exact .inl (sameConfiguration_refl _)

/-- Without reset, a step either leaves the configuration alone or ends a legal `CFG` (R126). -/
theorem step_configuration {s t : State} (h : step s = .next t)
    (hrst : (inputsNow s).rst = false) :
    SameConfiguration t.regs s.regs ∨ (s.regs.fsm = .busy ∧ ∃ sub cnt node : Field,
      decode s.sampled.cmd = .ok (.cfg sub cnt node) ∧
      configLegal sub.toNat cnt.toNat node.toNat = true) := by
  rcases step_cases s with ⟨hrst', -⟩ | ⟨-, -, -, he⟩ | ⟨-, -, -, he⟩ | ⟨-, -, he⟩ | ⟨-, -, he⟩ |
    ⟨-, -, _, -, he⟩ | ⟨-, hbusy, i, hd, he⟩
  · exact absurd (hrst.symm.trans hrst') nofun
  · cases he.symm.trans h; exact .inl (sameConfiguration_refl _)
  · cases he.symm.trans h; exact .inl (sameConfiguration_refl _)
  · cases he.symm.trans h; exact .inl (sameConfiguration_refl _)
  · cases he.symm.trans h
  · cases he.symm.trans h; exact .inl (sameConfiguration_refl _)
  · rcases exec_configuration (he.symm.trans h) with hsame | ⟨sub, cnt, node, rfl, hlegal⟩
    · exact .inl hsame
    · exact .inr ⟨hbusy, sub, cnt, node, hd, hlegal⟩

/-! ### The obligations -/

/-- Settles O19: every row of `step_cases` keeps the invariant, by the lemma for its update. -/
theorem everyStepKeepsTheInvariant : Obligations.EveryStepKeepsTheInvariant :=
  fun _ _ hinv h => step_keeps_inv hinv h

/-- Settles O22: outside reset only the `CFG` case of `exec_cases` writes a configuration register. -/
theorem onlyCfgAndResetWriteConfiguration : Obligations.OnlyCfgAndResetWriteConfiguration := by
  intro s t h hrst hchanged
  rcases step_configuration h hrst with hsame | ⟨hbusy, sub, cnt, node, hd, hlegal⟩
  · exact absurd hsame hchanged
  · exact ⟨hbusy, sub, cnt, node, hd, configLegal_iff.mp hlegal⟩

/-- Settles O12: `State.reset` is the stated record, and the outputs are read off it. -/
theorem resetStateHoldsStatedValues : Obligations.ResetStateHoldsStatedValues :=
  ⟨rfl, rfl, rfl, rfl, rfl, rfl⟩

/-- Settles O18: the reset registers meet the invariant. -/
theorem invariantHoldsAtReset : Obligations.InvariantHoldsAtReset := inv_reset

end Sys2Proof.Machine
end

section
/-! A run of offered commands (spec/30_encoding.md R51): the step row by row, what an operation may
depend on, and the two edges of one command as the one-command step `commandStep`. -/

namespace Sys2Proof.Machine

open Sys2Proof.Safety

/-! ### The step, one equation for each row of R126 that needs no reset -/

theorem inputsNow_of_cons {s : State} {p : Inputs} {rest : List Inputs}
    (hin : s.inputs = p :: rest) : inputsNow s = p := by
  simp [inputsNow, hin]

theorem pastEdge_of_cons {s : State} {p : Inputs} {rest : List Inputs}
    (hin : s.inputs = p :: rest) : pastEdge s = { s with inputs := rest } := by
  simp [pastEdge, hin]

/-- An offered command is accepted in IDLE (R51). -/
theorem step_of_idle_offer {s : State} {p : Inputs} {rest : List Inputs}
    (hidle : s.regs.fsm = .idle) (hin : s.inputs = p :: rest) (hrst : p.rst = false)
    (hvalid : p.cmdValid = true) :
    step s = .next (acceptCommand p.data { s with inputs := rest }) := by
  simp [step, inputsNow_of_cons hin, pastEdge_of_cons hin, hrst, hidle, hvalid]

/-- A command in flight comes to its end (R51). -/
theorem step_of_busy {s : State} {p : Inputs} {rest : List Inputs}
    (hbusy : s.regs.fsm = .busy) (hin : s.inputs = p :: rest) (hrst : p.rst = false) :
    step s = runSampled { s with inputs := rest } := by
  simp [step, inputsNow_of_cons hin, pastEdge_of_cons hin, hrst, hbusy]

/-- Nothing happens in FAULT without reset (R138). -/
theorem step_of_fault {s : State} {p : Inputs} {rest : List Inputs}
    (hfault : s.regs.fsm = .fault) (hin : s.inputs = p :: rest) (hrst : p.rst = false) :
    step s = .next (quietEdge { s with inputs := rest }) := by
  simp [step, inputsNow_of_cons hin, pastEdge_of_cons hin, hrst, hfault]

/-- Two edges of a stopped core. -/
theorem run_two_of_fault {s : State} {p q : Inputs} {rest : List Inputs}
    (hfault : s.regs.fsm = .fault) (hin : s.inputs = p :: q :: rest) (hp : p.rst = false)
    (hq : q.rst = false) :
    core.run 2 s = .next (quietEdge { s with inputs := rest }) := by
  rw [run_succ_of_next 1 (step_of_fault hfault hin hp), run_one]
  exact step_of_fault hfault rfl hq

/-- Once a command is accepted, the next edge without reset ends it, whatever else it carries. -/
theorem run_two_of_idle_offer {s : State} {p q : Inputs} {rest : List Inputs}
    (hidle : s.regs.fsm = .idle) (hin : s.inputs = p :: q :: rest) (hp : p.rst = false)
    (hvalid : p.cmdValid = true) (hq : q.rst = false) :
    core.run 2 s = runSampled (acceptCommand p.data { s with inputs := rest }) := by
  have haccept := step_of_idle_offer hidle hin hp hvalid
  rw [run_succ_of_next 1 haccept, run_one]
  exact step_of_busy rfl rfl hq

/-! ### What an operation depends on -/

/-- `s` under another script of the host's. -/
def State.withInputs (s : State) (ins : List Inputs) : State := { s with inputs := ins }

@[simp] theorem withInputs_regs (s : State) (ins : List Inputs) :
    (s.withInputs ins).regs = s.regs := rfl
@[simp] theorem withInputs_sampled (s : State) (ins : List Inputs) :
    (s.withInputs ins).sampled = s.sampled := rfl
@[simp] theorem withInputs_rsp (s : State) (ins : List Inputs) :
    (s.withInputs ins).rsp = s.rsp := rfl
@[simp] theorem withInputs_inputs (s : State) (ins : List Inputs) :
    (s.withInputs ins).inputs = ins := rfl

/-- An operation goes on, and neither reads nor uses up the host's script (R51, R102). -/
theorem exec_withInputs (i : Instr) (s : State) :
    ∃ t, exec i s = .next t ∧ ∀ ins, exec i (s.withInputs ins) = .next (t.withInputs ins) := by
  cases i with
  | nop => exact ⟨_, rfl, fun _ => rfl⟩
  | cfg sub cnt node =>
    simp only [exec, execCfg, withInputs_regs, withInputs_sampled]
    cases configLegal sub.toNat cnt.toNat node.toNat <;> exact ⟨_, rfl, fun _ => rfl⟩
  | next =>
    simp only [exec, execNext, withInputs_regs, withInputs_sampled]
    by_cases hconf : s.regs.configured = false
    · simp only [hconf, ↓reduceIte]; exact ⟨_, rfl, fun _ => rfl⟩
    · simp only [hconf]
      by_cases hrnd : s.sampled.rndOk = false
      · simp only [hrnd, ↓reduceIte]; exact ⟨_, rfl, fun _ => rfl⟩
      · simp only [hrnd]
        cases generate s.regs s.sampled <;> exact ⟨_, rfl, fun _ => rfl⟩
  | getbit sel index =>
    simp only [exec, execGetbit, withInputs_sampled]
    cases getOperandBit sel s.sampled index.toNat <;> exact ⟨_, rfl, fun _ => rfl⟩
  | setbit sel index v =>
    cases sel with
    | opId =>
      simp only [exec, execSetbit, withInputs_sampled]
      cases setBit .identifier s.sampled.opId index.toNat v <;> exact ⟨_, rfl, fun _ => rfl⟩
    | opSrc =>
      simp only [exec, execSetbit, withInputs_sampled]
      cases setBit .source s.sampled.opSrc index.toNat v <;> exact ⟨_, rfl, fun _ => rfl⟩
  | map l => exact ⟨_, rfl, fun _ => rfl⟩
  | stack start len =>
    simp only [exec, execStack, withInputs_sampled]
    cases stack s.sampled.opId start.toNat s.sampled.opSrc len.toNat <;>
      exact ⟨_, rfl, fun _ => rfl⟩
  | encdec bits =>
    simp only [exec, execEncdec]
    split <;> exact ⟨_, rfl, fun _ => rfl⟩
  | decdec bits =>
    simp only [exec, execDecdec]
    split <;> exact ⟨_, rfl, fun _ => rfl⟩
  | getts => exact ⟨_, rfl, fun _ => rfl⟩
  | getver => exact ⟨_, rfl, fun _ => rfl⟩
  | getvar => exact ⟨_, rfl, fun _ => rfl⟩
  | getpay start len =>
    simp only [exec, execGetpay, withInputs_sampled]
    cases payloadLoop s.sampled.opId start.toNat len.toNat 0 0 <;> exact ⟨_, rfl, fun _ => rfl⟩
  | rdreg number =>
    simp only [exec, execRdreg, withInputs_regs]
    cases regView s.regs number.toNat <;> exact ⟨_, rfl, fun _ => rfl⟩

/-- The core waits for a command: in IDLE, or stopped in FAULT with no response driven (R136). -/
abbrev Settled (s : State) : Prop := s.regs.fsm = .idle ∨ (s.regs.fsm = .fault ∧ s.rsp = none)

theorem exec_settles {i : Instr} {s t : State} (h : exec i s = .next t) : Settled t := by
  rcases exec_cases i s with ⟨id, val, he⟩ | ⟨code, -, he⟩ | ⟨he, -⟩ | ⟨e, he⟩ |
    ⟨sub, cnt, node, -, -, he⟩ | ⟨g, -, -, -, -, he⟩ <;> cases he.symm.trans h
  · exact .inl rfl
  · exact .inl rfl
  · exact .inr ⟨rfl, rfl⟩
  · exact .inr ⟨rfl, rfl⟩
  · exact .inl rfl
  · exact .inl rfl

/-! ### The end of a command -/

theorem runSampled_of_ok {s : State} {i : Instr} (hd : decode s.sampled.cmd = .ok i) :
    runSampled s = exec i s := by
  rw [runSampled, hd]

theorem runSampled_of_error {s : State} {e : Reject} (hd : decode s.sampled.cmd = .error e) :
    runSampled s = .next (refuse .illegalCommand s) := by
  rw [runSampled, hd]

/-- A command comes to an end that waits for the next one, whatever the host's script (R51). -/
theorem runSampled_withInputs (s : State) :
    ∃ t, Settled t ∧ runSampled s = .next t ∧
      ∀ ins, runSampled (s.withInputs ins) = .next (t.withInputs ins) := by
  cases hd : decode s.sampled.cmd with
  | error e =>
    exact ⟨_, .inl rfl, runSampled_of_error hd,
      fun ins => runSampled_of_error (s := s.withInputs ins) hd⟩
  | ok i =>
    obtain ⟨t, ht, hins⟩ := exec_withInputs i s
    exact ⟨t, exec_settles ht, (runSampled_of_ok hd).trans ht,
      fun ins => (runSampled_of_ok (s := s.withInputs ins) hd).trans (hins ins)⟩

/-! ### The one-command step -/

/-- In IDLE the one-command step is where the accepted command ends (R51). -/
theorem commandStep_of_runSampled {s t : State} {x : Sampled} (hidle : s.regs.fsm = .idle)
    (h : runSampled (acceptCommand x s) = .next t) : commandStep s x = t := by
  rw [commandStep, if_pos hidle]
  cases hd : decode x.cmd with
  | error e =>
    rw [runSampled_of_error (s := acceptCommand x s) hd] at h
    cases h; rfl
  | ok i =>
    rw [runSampled_of_ok (s := acceptCommand x s) hd, acceptCommand] at h
    simp only [h]

/-- A stopped core accepts nothing (R138). -/
theorem commandStep_of_fault {s : State} (x : Sampled) (hfault : s.regs.fsm = .fault) :
    commandStep s x = s := by
  rw [commandStep, if_neg (by simp [hfault])]

/-- From a core that waits for a command, the one-command step leads to such a core, is independent of
the host's script, and is what the two edges of the offered command do. -/
theorem commandStep_spec {s : State} (x : Sampled) (hs : Settled s) :
    Settled (commandStep s x) ∧
      (∀ ins, commandStep (s.withInputs ins) x = (commandStep s x).withInputs ins) ∧
      ∀ rest, s.inputs = offered x ++ rest →
        core.run 2 s = .next ((commandStep s x).withInputs rest) := by
  rcases hs with hidle | ⟨hfault, hrsp⟩
  · obtain ⟨t, hsettled, ht, hins⟩ := runSampled_withInputs (acceptCommand x s)
    rw [commandStep_of_runSampled hidle ht]
    refine ⟨hsettled, fun ins => ?_, fun rest hin => ?_⟩
    · exact commandStep_of_runSampled (s := s.withInputs ins) hidle (hins ins)
    · exact (run_two_of_idle_offer hidle hin rfl rfl rfl).trans (hins rest)
  · rw [commandStep_of_fault x hfault]
    refine ⟨.inr ⟨hfault, hrsp⟩, fun ins => ?_, fun rest hin => ?_⟩
    · exact commandStep_of_fault (s := s.withInputs ins) x hfault
    · rw [run_two_of_fault hfault hin rfl rfl]
      simp [quietEdge, State.withInputs, hrsp]

/-! ### A run of commands -/

/-- A run goes on from where its first `k` steps end. -/
theorem run_add_of_next {s t : State} {k : Nat} (n : Nat) (h : core.run k s = .next t) :
    core.run (k + n) s = core.run n t := by
  induction k generalizing s with
  | zero => cases h; rw [Nat.zero_add]
  | succ k ih =>
    rw [Nat.succ_add]
    cases hstep : step s with
    | next u =>
      rw [run_succ_of_next k hstep] at h
      rw [run_succ_of_next (k + n) hstep, ih h]
    | fault e => simp [Host.Core.run, core, hstep] at h
    | refused e => simp [Host.Core.run, core, hstep] at h

/-- The run over a script of offered commands, from any core that waits for a command. -/
theorem run_of_offered (xs : List Sampled) {s : State} (hs : Settled s)
    (hin : s.inputs = xs.flatMap offered) :
    core.run (2 * xs.length) s = .next (xs.foldl commandStep (s.withInputs [])) := by
  induction xs generalizing s with
  | nil =>
    have hnil : s.inputs = [] := hin
    rw [← hnil]; rfl
  | cons x xs ih =>
    obtain ⟨hsettled, hins, hrun⟩ := commandStep_spec x hs
    have hrest := ih (s := (commandStep s x).withInputs (xs.flatMap offered)) hsettled rfl
    have hfold : (x :: xs).foldl commandStep (s.withInputs []) =
        xs.foldl commandStep ((commandStep s x).withInputs []) := by rw [List.foldl_cons, hins]
    calc core.run (2 * (xs.length + 1)) s
        = core.run (2 + 2 * xs.length) s := by rw [Nat.mul_succ, Nat.add_comm]
      _ = core.run (2 * xs.length) ((commandStep s x).withInputs (xs.flatMap offered)) :=
          run_add_of_next _ (hrun _ hin)
      _ = .next (xs.foldl commandStep ((commandStep s x).withInputs [])) := hrest
      _ = .next ((x :: xs).foldl commandStep (s.withInputs [])) := congrArg _ hfold.symm

/-! ### The obligations -/

/-- Settles O10, by induction on the commands from any state that waits for one: `run_of_offered`. -/
theorem runIsFoldOfCommands : Obligations.RunIsFoldOfCommands :=
  fun xs _ hidle hin => run_of_offered xs (.inl hidle) hin

/-- Settles O9: the second edge ends the accepted command without reading its other ports. -/
theorem commandRunsOnSampledInputs : Obligations.CommandRunsOnSampledInputs := by
  intro s p q rest i hidle hin hp hvalid hq hd
  exact (run_two_of_idle_offer hidle hin hp hvalid hq).trans (runSampled_of_ok hd)

/-- Settles O28: the ranges from `absolute_eq`, monotonicity, image and inverse from its lemmas. -/
theorem absoluteIsThePayloadBijection : Obligations.AbsoluteIsThePayloadBijection := by
  refine ⟨?_, ?_, ?_, fun _ _ => absolute_strictMono, ?_, ?_, ?_, ?_, ?_, ?_⟩
  · intro l h; rw [absolute_eq, if_pos h]
  · intro l h1 h2; rw [absolute_eq, if_neg (by omega), if_pos h2]
  · intro l h; rw [absolute_eq, if_neg (by omega), if_neg (by omega)]
  · intro l h; have := (absolute_lt_iff l).mpr h; omega
  · intro l h; have := absolute_of_ge l h; omega
  · intro a
    constructor
    · intro h; exact exists_logical (by omega) (by omega) (by omega) (by omega) (by omega)
    · rintro ⟨l, hl, rfl⟩
      have hlt := (absolute_lt_iff l).mpr hl
      have havoid := absolute_avoids l
      omega
  · intro a h1 h2; rw [absolute_eq, if_pos (by omega)]; omega
  · intro a h1 h2; rw [absolute_eq, if_neg (by omega), if_pos (by omega)]; omega
  · intro a h1 h2; rw [absolute_eq, if_neg (by omega), if_neg (by omega)]; omega

end Sys2Proof.Machine
end

section
/-! Decoder and encoder (spec/30_encoding.md R52, R53, R58, R60): each undoes the other, and the
decoder is the match and mask table of the opcode map. -/

namespace Sys2Proof

/-! ### Decoding an encoded operation -/

/-- The buffer of an encoded `sel` bit is the one encoded. -/
@[simp] theorem bufSelOf_bit (sel : BufSel) : bufSelOf sel.bit = sel := by
  cases sel <;> rfl

/-- The `sel` bit of a decoded buffer is the one decoded. -/
@[simp] theorem bit_bufSelOf (sel : BitVec 1) : (bufSelOf sel).bit = sel := by
  revert sel; decide

/-- `SETBIT`'s `c` field is the bit it carries, when its unused bits are 0. -/
theorem ofBool_getLsbD_zero {c : Field} (h : c.extractLsb' 1 7 = 0#7) :
    (BitVec.ofBool (c.getLsbD 0)).setWidth 8 = c := by
  revert c; decide

/-- The bit `SETBIT` carries is bit 0 of its encoded `c` field. -/
@[simp] theorem getElem_zero_ofBool (v : Bool) : ((BitVec.ofBool v).setWidth 8)[0] = v := by
  cases v <;> rfl

/-- The unused bits of an encoded `SETBIT`'s `c` field are 0. -/
@[simp] theorem unusedBits_ofBool (v : Bool) :
    ((BitVec.ofBool v).setWidth 8).extractLsb' 1 7 = 0#7 := by
  cases v <;> rfl

/-- Every field the decoder looks at is read back from the packed word, operation by operation. -/
theorem decode_encode (i : Instr) : decode (encode i) = .ok i := by
  cases i <;>
    simp [encode, decode, opField_pack, selField_pack, rsvField_pack, aField_pack, bField_pack,
      cField_pack, Instr.opcode]

/-! ### Encoding a decoded word -/

/-- What the decoder accepts has a zero `rsv` field (R60 (b)). -/
theorem rsvField_of_decode {w : Command} {i : Instr} (h : decode w = .ok i) : rsvField w = 0#3 := by
  by_contra hrsv
  simp [decode, hrsv] at h

/-- The encoding of what the decoder accepts packs the fields it was decoded from: those the operation
carries, and 0 for those it does not use (R60 (c)). -/
theorem encode_eq_pack_of_decode {w : Command} {i : Instr} (h : decode w = .ok i) :
    encode i = pack (opField w) (selField w) (aField w) (bField w) (cField w) := by
  simp only [decode, if_pos (rsvField_of_decode h)] at h
  split at h
  case h_15 => cases h
  all_goals
    next hop =>
    obtain ⟨hunused, rfl⟩ := ifUnusedZero_ok.mp h
    have hop' := (BitVec.toNat_eq_nat.mp hop).2
    simp only [decide_eq_true_eq] at hunused
    simp [encode, Instr.opcode, hop', hunused, ofBool_getLsbD_zero, -BitVec.getLsbD_eq_getElem]

theorem encode_of_decode {w : Command} {i : Instr} (h : decode w = .ok i) : encode i = w :=
  (encode_eq_pack_of_decode h).trans (pack_fields w (rsvField_of_decode h))

theorem opField_of_decode {w : Command} {i : Instr} (h : decode w = .ok i) :
    opField w = i.opcode := by
  rw [← encode_of_decode h]
  cases i <;> exact opField_pack _ _ _ _ _

/-! ### The decoder as a table -/

/-- A word is determined by its six fields (R52). -/
theorem eq_iff_fields {v w : Command} : v = w ↔
    opField v = opField w ∧ selField v = selField w ∧ rsvField v = rsvField w ∧
      aField v = aField w ∧ bField v = bField w ∧ cField v = cField w := by
  constructor
  · rintro rfl; exact ⟨rfl, rfl, rfl, rfl, rfl, rfl⟩
  · simp only [opField, selField, rsvField, aField, bField, cField, BitVec.toNat_eq,
      BitVec.extractLsb'_toNat, Nat.shiftRight_eq_div_pow]
    omega

/-- Masking a word masks each field. -/
theorem mask_eq_iff {w m v : Command} : w &&& m = v ↔
    opField w &&& opField m = opField v ∧ selField w &&& selField m = selField v ∧
      rsvField w &&& rsvField m = rsvField v ∧ aField w &&& aField m = aField v ∧
      bField w &&& bField m = bField v ∧ cField w &&& cField m = cField v := by
  simp only [eq_iff_fields, opField, selField, rsvField, aField, bField, cField,
    BitVec.extractLsb'_and]

/-- What the rows of the opcode map have in common: the mask fixes `op` and `rsv` whole, and the match
is 0 outside `op` (R58). -/
theorem opcodeTable_fields : ∀ row ∈ opcodeTable,
    opField row.mask = BitVec.allOnes 4 ∧ rsvField row.mask = BitVec.allOnes 3 ∧
      opField row.value = row.op ∧ selField row.value = 0#1 ∧ rsvField row.value = 0#3 ∧
      aField row.value = 0#8 ∧ bField row.value = 0#8 ∧ cField row.value = 0#8 := by
  decide

/-- A word matches a row: the row's operation code, `rsv` = 0, and 0 wherever else the mask looks. -/
theorem row_matches_iff {row : OpcodeRow} (hrow : row ∈ opcodeTable) (w : Command) :
    w &&& row.mask = row.value ↔ opField w = row.op ∧ rsvField w = 0#3 ∧
      selField w &&& selField row.mask = 0#1 ∧ aField w &&& aField row.mask = 0#8 ∧
      bField w &&& bField row.mask = 0#8 ∧ cField w &&& cField row.mask = 0#8 := by
  obtain ⟨hop, hrsv, vop, vsel, vrsv, va, vb, vc⟩ := opcodeTable_fields row hrow
  rw [mask_eq_iff, hop, hrsv, vop, vsel, vrsv, va, vb, vc, BitVec.and_allOnes, BitVec.and_allOnes]
  tauto

/-- The decoder gives an operation with code `op`: the word has that code, `rsv` = 0, and decodes. -/
theorem exists_decode_iff {w : Command} {op : BitVec 4} :
    (∃ i, decode w = .ok i ∧ i.opcode = op) ↔
      opField w = op ∧ rsvField w = 0#3 ∧ ∃ i, decode w = .ok i := by
  constructor
  · rintro ⟨i, hi, rfl⟩
    exact ⟨opField_of_decode hi, rsvField_of_decode hi, i, hi⟩
  · rintro ⟨rfl, -, i, hi⟩
    exact ⟨i, hi, (opField_of_decode hi).symm⟩

theorem exists_ifUnusedZero {P : Prop} [Decidable P] {i : Instr} :
    (∃ j, ifUnusedZero (decide P) i = .ok j) ↔ P := by
  simp [ifUnusedZero_ok]

/-- The mask of a whole field. -/
theorem and_fieldMask (x : Field) : x &&& 255#8 = x := BitVec.and_allOnes

/-- The mask of the whole `sel` field. -/
theorem and_selMask (x : BitVec 1) : x &&& 1#1 = x := BitVec.and_allOnes

/-- The mask of `SETBIT`'s `c` field asks for its seven unused bits. -/
theorem and_unusedBits_eq_zero (c : Field) : c &&& 254#8 = 0#8 ↔ c.extractLsb' 1 7 = 0#7 := by
  revert c; decide

/-- Under a row's operation code the decoder accepts exactly the words that are 0 wherever the row's
mask looks (R53, R60 (c)). -/
theorem decodes_iff_of_row {row : OpcodeRow} (hrow : row ∈ opcodeTable) {w : Command}
    (hop : opField w = row.op) (hrsv : rsvField w = 0#3) :
    (∃ i, decode w = .ok i) ↔
      selField w &&& selField row.mask = 0#1 ∧ aField w &&& aField row.mask = 0#8 ∧
      bField w &&& bField row.mask = 0#8 ∧ cField w &&& cField row.mask = 0#8 := by
  fin_cases hrow
  all_goals
    simp only [decode, hop, hrsv, ↓reduceIte, BitVec.ofNat_eq_ofNat, BitVec.reduceToNat,
      exists_ifUnusedZero]
    simp [selField, aField, bField, cField, and_fieldMask, and_selMask, and_unusedBits_eq_zero]

/-! ### The obligations -/

/-- Settles O1: `decode_encode`. -/
theorem decodeOfEncodeIsTheInstruction : Obligations.DecodeOfEncodeIsTheInstruction := decode_encode

/-- Settles O2: an accepted word is the packing of its fields, and so is its operation's encoding. -/
theorem encodeOfDecodedWordIsTheWord : Obligations.EncodeOfDecodedWordIsTheWord :=
  fun _ _ h => encode_of_decode h

/-- Settles O4, word by word. -/
theorem writtenOutWordsDecode : Obligations.WrittenOutWordsDecode :=
  ⟨rfl, rfl, rfl, rfl, rfl, rfl, rfl, rfl⟩

/-- Settles O3: a row and the decoder look at the same fields, `op` and `rsv` first. -/
theorem decoderMatchesOpcodeTable : Obligations.DecoderMatchesOpcodeTable := by
  intro row hrow w
  rw [row_matches_iff hrow, exists_decode_iff]
  exact and_congr_right fun hop => and_congr_right fun hrsv =>
    (decodes_iff_of_row hrow hop hrsv).symm

end Sys2Proof
end

section
/-! How a command ends (spec/30_encoding.md R51, R57 to R59): the step that runs the command in
flight, the statuses it can answer, and what the operations outside the generator read and write. -/

namespace Sys2Proof.Machine

open Sys2Proof.Safety

/-! ### The step in BUSY -/

/-- In BUSY without reset the step ends the command in flight (R126). -/
theorem step_of_busy_of_rst_eq_false {s : State} (hbusy : s.regs.fsm = .busy)
    (hrst : (inputsNow s).rst = false) : step s = runSampled (pastEdge s) := by
  simp [step, hrst, hbusy]

/-- A placed word meets no reset at the next step (log entry 6). -/
@[simp] theorem inputsNow_withFetchWord_rst (s : State) (nbits w : Nat) :
    (inputsNow (s.withFetchWord nbits w)).rst = false := by
  rcases s with ⟨regs, sampled, rsp, _ | ⟨p, rest⟩⟩ <;> rfl

/-- Placing a word keeps the host's script after the coming edge. -/
theorem pastEdge_withFetchWord (s : State) (nbits w : Nat) :
    pastEdge (s.withFetchWord nbits w) = { s.withFetchWord nbits w with inputs := s.inputs.tail } := by
  rcases s with ⟨regs, sampled, rsp, _ | ⟨p, rest⟩⟩ <;> rfl

theorem decode_of_decodeTableWord {nbits w : Nat} {i : Instr}
    (h : decodeTableWord nbits w = some i) : decode (commandOfTableWord nbits w) = .ok i := by
  unfold decodeTableWord at h
  split at h
  · next j hj => cases h; exact hj
  · cases h

/-! ### Every command ends -/

/-- `t` is the end of a command run at `s`: the host's script is untouched, and there is a response and
a ready core, or the core stopped without one (R51). -/
abbrev EndsCommand (s t : State) : Prop :=
  t.inputs = s.inputs ∧
    ((t.rspValid = true ∧ t.cmdReady = true) ∨ (t.rspValid = false ∧ t.faultOut = true))

theorem endsCommand_of_answer {s : State} (r : Regs) (code : Code) (id : Ident) (val : BitVec 64) :
    EndsCommand s (respond code id val { s with regs := r }) := ⟨rfl, .inl ⟨rfl, rfl⟩⟩

theorem endsCommand_raise (code : Code) (info : BitVec 17) (s : State) :
    EndsCommand s (raise code info s) := ⟨rfl, .inr ⟨rfl, rfl⟩⟩

theorem exec_ends (i : Instr) (s : State) : ∃ t, exec i s = .next t ∧ EndsCommand s t := by
  rcases exec_cases i s with ⟨id, val, he⟩ | ⟨code, -, he⟩ | ⟨he, -⟩ | ⟨e, he⟩ |
    ⟨sub, cnt, node, -, -, he⟩ | ⟨g, -, -, -, -, he⟩
  · exact ⟨_, he, endsCommand_of_answer _ _ _ _⟩
  · exact ⟨_, he, endsCommand_of_answer _ _ _ _⟩
  · exact ⟨_, he, endsCommand_raise _ _ _⟩
  · exact ⟨_, he, endsCommand_raise _ _ _⟩
  · exact ⟨_, he, endsCommand_of_answer _ _ _ _⟩
  · exact ⟨_, he, endsCommand_of_answer _ _ _ _⟩

theorem runSampled_ends (s : State) : ∃ t, runSampled s = .next t ∧ EndsCommand s t := by
  cases hd : decode s.sampled.cmd with
  | ok i => rw [runSampled_of_ok hd]; exact exec_ends i s
  | error e => exact ⟨_, runSampled_of_error hd, endsCommand_of_answer _ _ _ _⟩

/-! ### Which statuses a response carries -/

/-- The response carries OK or a recoverable code, with zero data unless OK (R57, R59). -/
abbrev Recoverable (r : Response) : Prop :=
  (r.status = 0 ∨ r.status = 2 ∨ r.status = 5 ∨ r.status = 6) ∧
    (r.status ≠ 0 → r.id = 0 ∧ r.val = 0)

theorem recoverable_ok (id : Ident) (val : BitVec 64) : Recoverable ⟨Code.ok.bits, id, val⟩ :=
  ⟨.inl rfl, fun h => absurd rfl h⟩

theorem recoverable_refusal {code : Code}
    (h : code ∈ [Code.configurationError, .notConfigured, .illegalCommand]) :
    Recoverable ⟨code.bits, 0, 0⟩ := by
  revert code; decide

theorem exec_response_recoverable {i : Instr} {s t : State} {r : Response}
    (h : exec i s = .next t) (hr : t.rsp = some r) : Recoverable r := by
  rcases exec_cases i s with ⟨id, val, he⟩ | ⟨code, hcode, he⟩ | ⟨he, -⟩ | ⟨e, he⟩ |
    ⟨sub, cnt, node, -, -, he⟩ | ⟨g, -, -, -, -, he⟩ <;> cases he.symm.trans h <;> cases hr
  · exact recoverable_ok _ _
  · exact recoverable_refusal hcode
  · exact recoverable_ok _ _
  · exact recoverable_ok _ _

/-- Only the end of a command drives a response: every other edge clears it (R126). -/
theorem step_response_recoverable {s t : State} {r : Response} (h : step s = .next t)
    (hr : t.rsp = some r) : Recoverable r := by
  rcases step_cases s with ⟨-, he⟩ | ⟨-, -, -, he⟩ | ⟨-, -, -, he⟩ | ⟨-, -, he⟩ | ⟨-, -, he⟩ |
    ⟨-, -, _, -, he⟩ | ⟨-, -, i, -, he⟩ <;> rw [he] at h
  · cases h; cases hr
  · cases h; cases hr
  · cases h; cases hr
  · cases h; cases hr
  · cases h
  · cases h; cases hr; exact recoverable_refusal (by decide)
  · exact exec_response_recoverable h hr

/-! ### The operations outside the generator -/

/-- The operations other than `CFG` and `NEXT` write no register but `FSM` and the fault record
(R102). -/
theorem exec_writes_no_register {i : Instr} (s : State)
    (hcfg : ∀ sub cnt node, i ≠ .cfg sub cnt node) (hnext : i ≠ .next) :
    ∃ t, exec i s = .next t ∧ t.sampled = s.sampled ∧ t.inputs = s.inputs ∧
      (t.regs = { s.regs with fsm := .idle } ∨
       t.regs = { s.regs with fsm := .fault, cause := 4, finfo := t.regs.finfo }) := by
  rcases exec_cases i s with ⟨id, val, he⟩ | ⟨code, -, he⟩ | ⟨-, hi⟩ | ⟨e, he⟩ |
    ⟨sub, cnt, node, hi, -, -⟩ | ⟨g, hi, -, -, -, -⟩
  · exact ⟨_, he, rfl, rfl, .inl rfl⟩
  · exact ⟨_, he, rfl, rfl, .inl rfl⟩
  · exact absurd hi hnext
  · exact ⟨_, he, rfl, rfl, .inr rfl⟩
  · exact absurd hi (hcfg sub cnt node)
  · exact absurd hi hnext

/-- With the ports `x` sampled the operation ends the same way whatever the rest of the state: the same
answer, or the same offending access. -/
abbrev DependsOnPortsAlone (i : Instr) (x : Sampled) : Prop :=
  (∃ code id val, ∀ s : State, s.sampled = x → exec i s = .next (respond code id val s)) ∨
  (∃ e, ∀ s : State, s.sampled = x → exec i s = .next (raiseBitIndex e s))

theorem unitAccess_dependsOnPortsAlone {i : Instr} (hi : unitAccess i = true) (x : Sampled) :
    DependsOnPortsAlone i x := by
  cases i with
  | cfg sub cnt node => cases hi
  | next => cases hi
  | rdreg number => cases hi
  | nop => exact .inl ⟨.ok, 0, 0, fun _ _ => rfl⟩
  | map l => exact .inl ⟨.ok, 0, zext64 (absolute l.toNat), fun _ _ => rfl⟩
  | getts => exact .inl ⟨.ok, 0, zext64 (timestampOf x.opId), by rintro s rfl; rfl⟩
  | getver => exact .inl ⟨.ok, 0, zext64 (versionOf x.opId), by rintro s rfl; rfl⟩
  | getvar => exact .inl ⟨.ok, 0, zext64 (variantOf x.opId), by rintro s rfl; rfl⟩
  | encdec bits =>
    by_cases h : bits.toNat > Config.wMax
    · exact .inl ⟨.illegalCommand, 0, 0, fun _ _ => if_pos h⟩
    · exact .inl ⟨.ok, 0, zext64 (encodeDecimal x.opSrc.toNat bits.toNat), by
        rintro s rfl; exact if_neg h⟩
  | decdec bits =>
    by_cases h : bits.toNat > Config.wMax
    · exact .inl ⟨.illegalCommand, 0, 0, fun _ _ => if_pos h⟩
    · exact .inl ⟨.ok, 0, zext64 (decodeDecimal x.opSrc.toNat bits.toNat).numerator, by
        rintro s rfl; exact if_neg h⟩
  | getbit sel index =>
    cases h : getOperandBit sel x index.toNat with
    | ok v => exact .inl ⟨.ok, 0, zext64 v.toNat, by rintro s rfl; simp only [exec, execGetbit, h]⟩
    | error e => exact .inr ⟨e, by rintro s rfl; simp only [exec, execGetbit, h]⟩
  | setbit sel index v =>
    cases sel with
    | opId =>
      cases h : setBit .identifier x.opId index.toNat v with
      | ok buf => exact .inl ⟨.ok, buf, 0, by rintro s rfl; simp only [exec, execSetbit, h]⟩
      | error e => exact .inr ⟨e, by rintro s rfl; simp only [exec, execSetbit, h]⟩
    | opSrc =>
      cases h : setBit .source x.opSrc index.toNat v with
      | ok buf => exact .inl ⟨.ok, 0, buf, by rintro s rfl; simp only [exec, execSetbit, h]⟩
      | error e => exact .inr ⟨e, by rintro s rfl; simp only [exec, execSetbit, h]⟩
  | stack start len =>
    cases h : stack x.opId start.toNat x.opSrc len.toNat with
    | ok r => exact .inl ⟨.ok, r.1, zext64 r.2, by rintro s rfl; simp only [exec, execStack, h]⟩
    | error e => exact .inr ⟨e, by rintro s rfl; simp only [exec, execStack, h]⟩
  | getpay start len =>
    cases h : payloadLoop x.opId start.toNat len.toNat 0 0 with
    | ok f => exact .inl ⟨.ok, buf16 f, 0, by rintro s rfl; simp only [exec, execGetpay, h]⟩
    | error e => exact .inr ⟨e, by rintro s rfl; simp only [exec, execGetpay, h]⟩

/-! ### The obligations -/

/-- Settles O14: the step is `runSampled`, and every command ends. -/
theorem everyAcceptedCommandEnds : Obligations.EveryAcceptedCommandEnds := by
  intro s hbusy hrst
  rw [step_of_busy_of_rst_eq_false hbusy hrst]
  exact runSampled_ends (pastEdge s)

/-- Settles O15, row by row of `step_cases`. -/
theorem responsesCarryRecoverableCodes : Obligations.ResponsesCarryRecoverableCodes :=
  fun _ _ _ h hr => step_response_recoverable h hr

/-- Settles O20: the listed operations are neither `CFG` nor `NEXT`. -/
theorem unitAccessWritesNoRegister : Obligations.UnitAccessWritesNoRegister := by
  intro s i hi
  apply exec_writes_no_register s
  · rintro sub cnt node rfl
    rcases hi with h | ⟨n, h⟩ <;> cases h
  · rintro rfl
    rcases hi with h | ⟨n, h⟩ <;> cases h

/-- Settles O21: the outcome is fixed by the sampled ports, which the two states share. -/
theorem unitAccessReadsNoRegister : Obligations.UnitAccessReadsNoRegister := by
  intro i s u hi hsampled
  rcases unitAccess_dependsOnPortsAlone hi s.sampled with ⟨code, id, val, h⟩ | ⟨e, h⟩
  · exact ⟨_, _, h s rfl, h u hsampled.symm, rfl, rfl, nofun⟩
  · exact ⟨_, _, h s rfl, h u hsampled.symm, rfl, rfl, fun _ => ⟨rfl, rfl⟩⟩

/-- Settles O6: the step is `runSampled`, which runs the operation decoded. -/
theorem stepRunsDecodedInstruction : Obligations.StepRunsDecodedInstruction := by
  intro s i hbusy hrst hd
  rw [step_of_busy_of_rst_eq_false hbusy hrst]
  exact runSampled_of_ok (s := pastEdge s) hd

/-- Settles O7: a placed word is in flight and meets no reset, so O6 applies. -/
theorem placedWordRunsNext : Obligations.PlacedWordRunsNext := by
  intro s nbits w i hw
  rw [← pastEdge_withFetchWord]
  exact stepRunsDecodedInstruction _ i rfl (inputsNow_withFetchWord_rst s nbits w)
    (decode_of_decodeTableWord hw)

/-- Settles O8: the acceptance row of the step. -/
theorem acceptanceSamplesThePorts : Obligations.AcceptanceSamplesThePorts :=
  fun _ _ _ hidle hin hrst hvalid => step_of_idle_offer hidle hin hrst hvalid

end Sys2Proof.Machine
end

section
/-! The bit primitives (spec/40_bit_primitives.md): `GETBIT` by the byte formula (R70, R33), `SETBIT`
(R71) and the laws of R72. -/

namespace Sys2Proof.Machine

open Sys2Proof.Safety

/-! ### A bit of a buffer by its byte -/

/-- Bit `i` counted from the most significant is the bit of weight `2^(w-1-i)` of the buffer's
integer (R7). -/
theorem getMsbD_eq_testBit {w : Nat} (buf : BitVec w) {i : Nat} (h : i < w) :
    buf.getMsbD i = buf.toNat.testBit (w - 1 - i) := by
  rw [BitVec.getMsbD_eq_getLsbD, decide_eq_true h, Bool.true_and, BitVec.testBit_toNat]

/-- Bit `i` of a buffer of `L` bytes by the byte formula of R33: byte `i / 8`, bit `i % 8` of it. -/
theorem toNat_getMsbD_eq_byte {L : Nat} (buf : BitVec (8 * L)) {i : Nat} (h : i < 8 * L) :
    (buf.getMsbD i).toNat =
      buf.toNat / 256 ^ (L - 1 - i / 8) % 256 / 2 ^ (7 - i % 8) % 2 := by
  have hpow : (256 : Nat) ^ (L - 1 - i / 8) = 2 ^ (8 * (L - 1 - i / 8)) := by rw [pow_mul]; rfl
  have hbit : 7 - i % 8 < 8 := by omega
  have hweight : 7 - i % 8 + 8 * (L - 1 - i / 8) = 8 * L - 1 - i := by omega
  rw [hpow, ← Nat.toNat_testBit, show (256 : Nat) = 2 ^ 8 from rfl, Nat.testBit_mod_two_pow,
    decide_eq_true hbit, Bool.true_and, Nat.testBit_div_two_pow, hweight, getMsbD_eq_testBit buf h]

/-! ### What one write does to the buffer -/

theorem one_shiftLeft_eq_ofNat (w k : Nat) : 1#w <<< k = BitVec.ofNat w (2 ^ k) := by
  apply BitVec.eq_of_toNat_eq
  rw [← BitVec.twoPow_eq, BitVec.toNat_twoPow, BitVec.toNat_ofNat]

/-- Setting to 1 is OR with the bit's weight (R72). -/
theorem putBit_true {w : Nat} (buf : BitVec w) (i : Nat) :
    putBit buf i true = buf ||| BitVec.ofNat w (2 ^ (w - 1 - i)) := by
  have hone : (BitVec.ofBool true).setWidth w = 1#w :=
    BitVec.eq_of_toNat_eq (by simp)
  rw [putBit, hone, one_shiftLeft_eq_ofNat]
  ext j hj
  simp only [BitVec.getElem_or, BitVec.getElem_and, BitVec.getElem_not]
  cases buf[j] <;> simp

/-- Setting to 0 is AND with the complement of the bit's weight (R72). -/
theorem putBit_false {w : Nat} (buf : BitVec w) (i : Nat) :
    putBit buf i false = buf &&& ~~~ BitVec.ofNat w (2 ^ (w - 1 - i)) := by
  simp [putBit, one_shiftLeft_eq_ofNat]

/-- Setting a bit to the value it has gives the buffer back (R72). -/
theorem putBit_getMsbD {w : Nat} (buf : BitVec w) {i : Nat} (h : i < w) :
    putBit buf i (buf.getMsbD i) = buf := by
  apply BitVec.eq_of_getMsbD_eq
  intro j _
  rw [getMsbD_putBit buf i j _ h]
  split
  · next hj => rw [hj]
  · rfl

/-! ### The two operations, from the outcome of their access (R70, R71) -/

theorem exec_getbit_of_ok {s : State} {sel : BufSel} {index : Field} {v : Bool}
    (h : getOperandBit sel s.sampled index.toNat = .ok v) :
    exec (.getbit sel index) s = .next (answered s 0 0 (BitVec.ofNat 64 v.toNat)) := by
  simp only [exec, execGetbit, h]; rfl

theorem exec_getbit_of_error {s : State} {sel : BufSel} {index : Field} {e : BitFault}
    (h : getOperandBit sel s.sampled index.toNat = .error e) :
    exec (.getbit sel index) s = .next (stopped s 4 e.finfo) := by
  simp only [exec, execGetbit, h]; rfl

theorem exec_setbit_opId_of_ok {s : State} {index : Field} {v : Bool} {buf : Ident}
    (h : setBit .identifier s.sampled.opId index.toNat v = .ok buf) :
    exec (.setbit .opId index v) s = .next (answered s 0 buf 0) := by
  simp only [exec, execSetbit, h]; rfl

theorem exec_setbit_opId_of_error {s : State} {index : Field} {v : Bool} {e : BitFault}
    (h : setBit .identifier s.sampled.opId index.toNat v = .error e) :
    exec (.setbit .opId index v) s = .next (stopped s 4 e.finfo) := by
  simp only [exec, execSetbit, h]; rfl

theorem exec_setbit_opSrc_of_ok {s : State} {index : Field} {v : Bool} {buf : Source}
    (h : setBit .source s.sampled.opSrc index.toNat v = .ok buf) :
    exec (.setbit .opSrc index v) s = .next (answered s 0 0 buf) := by
  simp only [exec, execSetbit, h]; rfl

theorem exec_setbit_opSrc_of_error {s : State} {index : Field} {v : Bool} {e : BitFault}
    (h : setBit .source s.sampled.opSrc index.toNat v = .error e) :
    exec (.setbit .opSrc index v) s = .next (stopped s 4 e.finfo) := by
  simp only [exec, execSetbit, h]; rfl

/-- The fault record of an identifier access at a command's index (R24). -/
theorem finfo_identifier_field (index : Field) :
    BitFault.finfo ⟨.identifier, index.toNat⟩ = identifierFinfo index.toNat :=
  finfo_identifier _ (by omega)

/-- The fault record of a source access at a command's index (R24). -/
theorem finfo_source_field (index : Field) :
    BitFault.finfo ⟨.source, index.toNat⟩ = sourceFinfo index.toNat :=
  finfo_source _ (by omega)

/-! ### The obligations -/

/-- Settles O24: the range check of `getBit`, and `toNat_getMsbD_eq_byte` for 16 and 8 bytes. -/
theorem getbitReadsOneBit : Obligations.GetbitReadsOneBit := by
  intro s index
  refine ⟨fun h => ?_, fun h => ?_, fun h => ?_, fun h => ?_⟩
  · rw [exec_getbit_of_ok (sel := .opId) (getBit_inRange _ _ _ h),
      toNat_getMsbD_eq_byte (L := 16) s.sampled.opId h, identByte]
  · rw [exec_getbit_of_error (sel := .opId) (getBit_outOfRange _ _ _ h), finfo_identifier_field]
  · rw [exec_getbit_of_ok (sel := .opSrc) (getBit_inRange _ _ _ h),
      toNat_getMsbD_eq_byte (L := 8) s.sampled.opSrc h, sourceByte]
  · rw [exec_getbit_of_error (sel := .opSrc) (getBit_outOfRange _ _ _ h), finfo_source_field]

/-- Settles O25: the range check of `setBit`, and `getMsbD_putBit` for every bit of the answer. -/
theorem setbitReplacesOneBit : Obligations.SetbitReplacesOneBit := by
  intro s index v
  refine ⟨fun h => ?_, fun h => ?_, fun h => ?_, fun h => ?_⟩
  · exact ⟨_, exec_setbit_opId_of_ok (setBit_inRange _ _ _ _ h),
      fun j => getMsbD_putBit _ _ j v h⟩
  · rw [exec_setbit_opId_of_error (setBit_outOfRange _ _ _ _ h), finfo_identifier_field]
  · exact ⟨_, exec_setbit_opSrc_of_ok (setBit_inRange _ _ _ _ h),
      fun j => getMsbD_putBit _ _ j v h⟩
  · rw [exec_setbit_opSrc_of_error (setBit_outOfRange _ _ _ _ h), finfo_source_field]

/-- Settles O26: the buffer written is `putBit`, which meets each law at every width. -/
theorem bitPrimitiveLaws : Obligations.BitPrimitiveLaws := by
  intro L kind buf i j v _ hi hj
  refine ⟨putBit buf i v, setBit_inRange _ _ _ _ hi, ?_, fun hji => ?_, fun hv => ?_, ?_, ?_⟩
  · rw [getBit_inRange _ _ _ hi, getMsbD_putBit _ _ _ _ hi, if_pos rfl]
  · rw [getBit_inRange _ _ _ hj, getBit_inRange _ _ _ hj, getMsbD_putBit _ _ _ _ hi, if_neg hji]
  · rw [getBit_inRange _ _ _ hi] at hv
    rw [← Except.ok.inj hv, putBit_getMsbD buf hi]
  · rintro rfl; exact putBit_true buf i
  · rintro rfl; exact putBit_false buf i

end Sys2Proof.Machine
end

section
/-! Index mapping (spec/41_index_mapping.md R75, R37): `MAP` answers `absolute`. -/

namespace Sys2Proof.Machine

open Sys2Proof.Safety

/-- `absolute` by the formula of R37 with its constants (R4) written out. -/
theorem absolute_eq_formula (l : Nat) :
    absolute l = 36 + l + (if l > 11 then 4 else 0) + (if l > 23 then 2 else 0) := rfl

/-- `MAP` makes no range-checked access, so it answers on every state (R75). -/
theorem exec_map (s : State) (l : Field) :
    exec (.map l) s = .next (answered s 0 0 (BitVec.ofNat 64 (absolute l.toNat))) := rfl

/-- Settles O27: the answer is `absolute`, by its formula. -/
theorem mapAnswersAbsolute : Obligations.MapAnswersAbsolute := by
  intro s l
  rw [exec_map, absolute_eq_formula]

end Sys2Proof.Machine
end

section
/-! Field stacking (spec/42_field_stacking.md R78, R79): what `STACK` answers, where it faults first,
and what `GETPAY` reads back from its answer (R80, R98). -/

namespace Sys2Proof.Machine

open Sys2Proof.Safety

/-! ### The operations, from the outcome of their loop (R79, R96) -/

theorem exec_stack_of_ok {s : State} {start len : Field} {id : Ident} {pos : Nat}
    (h : stack s.sampled.opId start.toNat s.sampled.opSrc len.toNat = .ok (id, pos)) :
    exec (.stack start len) s = .next (answered s 0 id (BitVec.ofNat 64 pos)) := by
  simp only [exec, execStack, h]; rfl

theorem exec_stack_of_error {s : State} {start len : Field} {e : BitFault}
    (h : stackLoop start.toNat s.sampled.opSrc len.toNat 0 s.sampled.opId = .error e) :
    exec (.stack start len) s = .next (stopped s 4 e.finfo) := by
  simp only [exec, execStack, stack, h]; rfl

theorem exec_getpay_of_ok {s : State} {start len : Field} {f : Nat}
    (h : payloadLoop s.sampled.opId start.toNat len.toNat 0 0 = .ok f) :
    exec (.getpay start len) s = .next (answered s 0 (buf16 f) 0) := by
  simp only [exec, execGetpay, h]; rfl

/-! ### The first bad access of `stack` (R78) -/

/-- The source check comes first, whatever the destination. -/
theorem stackLoop_source_outOfRange {start k : Nat} (src : Source) (n : Nat) (id : Ident)
    (hk : 63 < k) : stackLoop start src (n + 1) k id = .error ⟨.source, k⟩ := by
  rw [stackLoop, if_pos hk]

theorem stackLoop_destination_outOfRange {start k : Nat} (src : Source) (n : Nat) (id : Ident)
    (hk : k ≤ 63) (hs : 86 ≤ start + k) :
    stackLoop start src (n + 1) k id = .error ⟨.identifier, start + k + 42⟩ := by
  rw [stackLoop, if_neg (by omega), absolute_of_ge _ hs, setBit_outOfRange _ _ _ _ (by omega)]

/-- A field that starts in the payload and leaves it before weight 64 stops at position 128. -/
theorem stackLoop_past_payload {start n : Nat} (src : Source) (id : Ident) (hs : start ≤ 86)
    (hn : 86 - start < min n 64) :
    stackLoop start src n 0 id = .error ⟨.identifier, 128⟩ := by
  obtain ⟨m, rfl⟩ : ∃ m, n = (86 - start) + (m + 1) := ⟨n - (86 - start) - 1, by omega⟩
  obtain ⟨id', hskip⟩ := stackLoop_skip start src (m + 1) 0 (86 - start) id (by omega) (by omega)
  rw [hskip, stackLoop_destination_outOfRange _ _ _ (by omega) (by omega)]
  congr 2
  omega

/-- A field that starts past the payload stops at its first destination. -/
theorem stackLoop_beyond_payload {start n : Nat} (src : Source) (id : Ident) (hn : 1 ≤ n)
    (hs : 86 < start) : stackLoop start src n 0 id = .error ⟨.identifier, start + 42⟩ := by
  obtain ⟨m, rfl⟩ : ∃ m, n = m + 1 := ⟨n - 1, by omega⟩
  exact stackLoop_destination_outOfRange _ _ _ (by omega) (by omega)

/-- A field longer than the source that stays in the payload until then stops at weight 64. -/
theorem stackLoop_past_source {start n : Nat} (src : Source) (id : Ident) (hn : 64 < n)
    (hs : start + 64 ≤ 86) : stackLoop start src n 0 id = .error ⟨.source, 64⟩ := by
  obtain ⟨m, rfl⟩ : ∃ m, n = 64 + (m + 1) := ⟨n - 65, by omega⟩
  obtain ⟨id', hskip⟩ := stackLoop_skip start src (m + 1) 0 64 id (by omega) (by omega)
  rw [hskip, stackLoop_source_outOfRange _ _ _ (by omega)]

/-! ### What `GETPAY` reads (R96) -/

/-- The number the read loop gives, bit by bit in a 16-byte buffer that holds it. -/
theorem buf16_readBits (bit : Nat → Bool) {n : Nat} (hn : n ≤ 128) :
    (∀ k, k < n → (buf16 (readBits bit n 0 0)).getLsbD (n - 1 - k) = bit k) ∧
    (∀ j, n ≤ j → (buf16 (readBits bit n 0 0)).getLsbD j = false) := by
  refine ⟨fun k hk => ?_, fun j hj => ?_⟩
  · have hweight : n - 1 - k < 128 := by omega
    rw [buf16, BitVec.getLsbD_ofNat, decide_eq_true hweight, Bool.true_and,
      readBits_testBit bit n 0 k hk, Nat.zero_add]
  · have hlt : readBits bit n 0 0 < 2 ^ j :=
      (readBits_lt bit n 0).trans_le (Nat.pow_le_pow_right (by omega) hj)
    rw [buf16, BitVec.getLsbD_ofNat, Nat.testBit_lt_two_pow hlt, Bool.and_false]

/-- An in-range `GETPAY` answers the payload bits in identifier order, right-aligned. -/
theorem exec_getpay_inRange (s : State) {start len : Field}
    (h : start.toNat + len.toNat ≤ 86) :
    ∃ f : Ident, exec (.getpay start len) s = .next (answered s 0 f 0) ∧
      (∀ k, k < len.toNat →
        f.getLsbD (len.toNat - 1 - k) = s.sampled.opId.getMsbD (absolute (start.toNat + k))) ∧
      (∀ j, len.toNat ≤ j → f.getLsbD j = false) :=
  ⟨_, exec_getpay_of_ok (payloadLoop_inRange _ _ _ 0 0 h), buf16_readBits _ (by omega)⟩

/-! ### The obligations -/

/-- Settles O29: in range the loop is `writeBits`, onto distinct positions below 128. -/
theorem stackWritesReversedField : Obligations.StackWritesReversedField := by
  intro s start len hrange
  have hdst : ∀ m, 0 ≤ m → m < 0 + len.toNat → absolute (start.toNat + m) < 128 :=
    fun m _ hm => (absolute_lt_iff _).mpr (by omega)
  refine ⟨_, exec_stack_of_ok (stack_inRange _ _ _ _ hrange), fun k hk => ?_, fun j hj => ?_⟩
  · have hinj : ∀ a b, absolute (start.toNat + a) = absolute (start.toNat + b) → a = b :=
      fun a b hab => Nat.add_left_cancel (absolute_inj.mp hab)
    exact writeBits_at _ _ _ 0 _ k hdst hinj (Nat.zero_le k) (by omega)
  · exact writeBits_other _ _ _ 0 _ j hdst fun k _ hk => hj k (by omega)

/-- Settles O30: the first bad access by where the field starts and how long it is. -/
theorem stackFaultsAtFirstBadAccess : Obligations.StackFaultsAtFirstBadAccess := by
  intro s start len hlen
  refine ⟨fun hs hn => ?_, fun hs => ?_, fun hn hs => ?_⟩
  · rw [exec_stack_of_error (stackLoop_past_payload _ _ hs hn), finfo_identifier _ (by omega),
      identifierFinfo]
  · rw [exec_stack_of_error (stackLoop_beyond_payload _ _ hlen hs), finfo_identifier _ (by omega),
      identifierFinfo]
  · rw [exec_stack_of_error (stackLoop_past_source _ _ hn hs), finfo_source _ (by omega),
      sourceFinfo]

/-- Settles O32: `GETPAY` reads first, so at the highest weight, the slot `STACK` gave weight 0. -/
theorem getpayOfStackIsReversal : Obligations.GetpayOfStackIsReversal := by
  intro s start len hlen hrange
  obtain ⟨id, hstack, hstacked, -⟩ := stackWritesReversedField s start len (.inr ⟨hlen, hrange⟩)
  refine ⟨_, _, hstack, rfl, fun u hu => ?_⟩
  obtain ⟨f, hgetpay, hread, hhigh⟩ := exec_getpay_inRange u hrange
  refine ⟨f, hgetpay, fun k hk => ?_, hhigh⟩
  rw [hread k hk, hu, hstacked k hk]

end Sys2Proof.Machine
end

section
/-! The sub-second codec (spec/43_subsecond_codec.md): the digit count of R83, the encoding as the
truncated digit-count fraction (R89 to R91), and the commands `ENCDEC` (R87) and `DECDEC` (R88). -/

namespace Sys2Proof.Machine

open Sys2Proof.Safety

/-! ### The digit count (R83) -/

theorem digits10_eq_of_bounds {n d : Nat} (hd : 1 ≤ d) (hle : 10 ^ (d - 1) ≤ n)
    (hlt : n < 10 ^ d) : digits10 n = d :=
  digits10_unique n d hd hlt (.inr ⟨(Nat.pow_pos (by omega)).trans_le hle, hle⟩)

theorem digits10_eq_nine {n : Nat} (hle : 100000000 ≤ n) (hlt : n ≤ 999999999) : digits10 n = 9 :=
  digits10_eq_of_bounds (by omega) (by omega) (by omega)

/-- The first digit of a count is at least 1. -/
theorem pow_digits10_le_ten_mul {n : Nat} (h : 1 ≤ n) : 10 ^ digits10 n ≤ 10 * n := by
  rw [← Nat.sub_add_cancel (one_le_digits10 n), pow_succ, Nat.mul_comm]
  exact Nat.mul_le_mul_left 10 (pow_digits10_le n h)

/-- `k` trailing zeros are `k` more digits. -/
theorem digits10_mul_pow {n : Nat} (h : 1 ≤ n) (k : Nat) :
    digits10 (n * 10 ^ k) = digits10 n + k := by
  induction k with
  | zero => simp
  | succ k ih =>
    have hpos : 1 ≤ n * 10 ^ k := Nat.mul_pos h (by positivity)
    rw [pow_succ, ← Nat.mul_assoc, digits10_mul_ten _ hpos, ih, Nat.add_assoc]

/-! ### The encoding of a known digit count (R84) -/

theorem encodeDecimal_of_digits10 {n d : Nat} (h : digits10 n = d) (b : Nat) :
    encodeDecimal n b = n * 2 ^ b / 10 ^ d := by
  rw [encodeDecimal, h]

theorem encodeDecimal_mono {n m : Nat} (hnm : n ≤ m) (hdigits : digits10 n = digits10 m) (b : Nat) :
    encodeDecimal n b ≤ encodeDecimal m b := by
  rw [encodeDecimal_of_digits10 hdigits, encodeDecimal]
  exact Nat.div_le_div_right (Nat.mul_le_mul_right _ hnm)

theorem encodeDecimal_mul_pow {n : Nat} (h : 1 ≤ n) (k b : Nat) :
    encodeDecimal (n * 10 ^ k) b = encodeDecimal n b := by
  rw [encodeDecimal_of_digits10 (digits10_mul_pow h k), pow_add, Nat.mul_right_comm,
    Nat.mul_div_mul_right _ _ (by positivity), encodeDecimal]

/-- The gap below a tenth (R89). -/
theorem pow_div_ten_le_encodeDecimal {n : Nat} (h : 1 ≤ n) (b : Nat) :
    2 ^ b / 10 ≤ encodeDecimal n b := by
  rw [encodeDecimal, Nat.le_div_iff_mul_le (by positivity)]
  calc 2 ^ b / 10 * 10 ^ digits10 n
      ≤ 2 ^ b / 10 * (10 * n) := Nat.mul_le_mul_left _ (pow_digits10_le_ten_mul h)
    _ = 2 ^ b / 10 * 10 * n := (Nat.mul_assoc _ _ _).symm
    _ ≤ 2 ^ b * n := Nat.mul_le_mul_right _ (Nat.div_mul_le_self _ _)
    _ = n * 2 ^ b := Nat.mul_comm _ _

/-! ### The digit-count fraction as a rational (R89) -/

theorem fraction_lt_one (n : Nat) : (n : ℚ) / 10 ^ digits10 n < 1 := by
  rw [div_lt_one (by positivity)]
  exact_mod_cast lt_pow_digits10 n

theorem tenth_le_fraction {n : Nat} (h : 1 ≤ n) : (1 / 10 : ℚ) ≤ (n : ℚ) / 10 ^ digits10 n := by
  rw [div_le_div_iff₀ (by norm_num) (by positivity), one_mul, mul_comm]
  exact_mod_cast pow_digits10_le_ten_mul h

theorem encodeDecimal_div_le_fraction (n b : Nat) :
    (encodeDecimal n b : ℚ) / 2 ^ b ≤ (n : ℚ) / 10 ^ digits10 n := by
  rw [div_le_div_iff₀ (by positivity) (by positivity)]
  exact_mod_cast (encodeDecimal_floor n b).1

theorem fraction_lt_encodeDecimal_succ_div (n b : Nat) :
    (n : ℚ) / 10 ^ digits10 n < ((encodeDecimal n b : ℚ) + 1) / 2 ^ b := by
  rw [div_lt_div_iff₀ (by positivity) (by positivity)]
  exact_mod_cast (encodeDecimal_floor n b).2

/-! ### Decoding an encoding (R86, R90) -/

theorem decodeDecimal_value (v b : Nat) : (decodeDecimal v b).value = (v : ℚ) / 2 ^ b := rfl

/-- What the decoded encoding lacks of the digit-count fraction. -/
theorem decode_encode_loss_bounds (n b : Nat) :
    0 ≤ (n : ℚ) / 10 ^ digits10 n - (decodeDecimal (encodeDecimal n b) b).value ∧
    (n : ℚ) / 10 ^ digits10 n - (decodeDecimal (encodeDecimal n b) b).value < 1 / 2 ^ b := by
  have hupper := fraction_lt_encodeDecimal_succ_div n b
  rw [add_div] at hupper
  rw [decodeDecimal_value]
  exact ⟨sub_nonneg.mpr (encodeDecimal_div_le_fraction n b), sub_lt_iff_lt_add'.mpr hupper⟩

/-! ### The two operations, by their width check (R87, R88) -/

theorem exec_encdec_of_le {s : State} {bits : Field} (h : bits.toNat ≤ 64) :
    exec (.encdec bits) s =
      .next (answered s 0 0 (zext64 (encodeDecimal s.sampled.opSrc.toNat bits.toNat))) :=
  if_neg (Nat.not_lt.mpr h)

theorem exec_encdec_of_gt {s : State} {bits : Field} (h : 64 < bits.toNat) :
    exec (.encdec bits) s = .next (answered s 6 0 0) := if_pos h

theorem exec_decdec_of_le {s : State} {bits : Field} (h : bits.toNat ≤ 64) :
    exec (.decdec bits) s = .next (answered s 0 0 (zext64 s.sampled.opSrc.toNat)) :=
  if_neg (Nat.not_lt.mpr h)

theorem exec_decdec_of_gt {s : State} {bits : Field} (h : 64 < bits.toNat) :
    exec (.decdec bits) s = .next (answered s 6 0 0) := if_pos h

/-! ### The obligations -/

/-- Settles O35: `digits10` is the digit count of R83, and the quotient fits its 64-bit port. -/
theorem encdecIsTheExactQuotient : Obligations.EncdecIsTheExactQuotient := by
  intro s bits d
  refine ⟨fun hwidth hcount => ⟨_, exec_encdec_of_le hwidth, ?_⟩, exec_encdec_of_gt⟩
  have hdigits : digits10 s.sampled.opSrc.toNat = d := by
    rcases hcount with ⟨hsmall, rfl⟩ | ⟨hd, hle, hlt⟩
    · exact countDigits_small _ _ (Nat.lt_succ_of_le hsmall)
    · exact digits10_eq_of_bounds hd hle hlt
  rw [encodeDecimal_toNat _ _ hwidth, encodeDecimal_of_digits10 hdigits]

/-- Settles O36: the bounds of the digit count, and the floor read as two rational inequalities. -/
theorem encodingIsTheTruncatedFraction : Obligations.EncodingIsTheTruncatedFraction :=
  fun n b => ⟨encodeDecimal_lt n b, lt_pow_digits10 n,
    fun h => ⟨pow_div_ten_le_encodeDecimal h b, tenth_le_fraction h⟩,
    fraction_lt_one n, encodeDecimal_div_le_fraction n b, fraction_lt_encodeDecimal_succ_div n b⟩

/-- Settles O37: one denominator within a digit count, and one power of ten cancels per zero. -/
theorem encodingOrderFollowsDigitStrings : Obligations.EncodingOrderFollowsDigitStrings := by
  have hdigits8 : digits10 99999999 = 8 :=
    digits10_eq_of_bounds (by omega) (by omega) (by omega)
  have hdigits9 : digits10 100000000 = 9 := digits10_eq_nine (by omega) (by omega)
  refine ⟨fun n m b hnm hdigits => encodeDecimal_mono hnm hdigits b,
    fun n k b h => encodeDecimal_mul_pow h k b, ?_, ?_⟩
  · rw [encodeDecimal_of_digits10 hdigits8]; norm_num
  · rw [encodeDecimal_of_digits10 hdigits9]; norm_num

/-- Settles O38: the loss is bounded for every count, and nine digits are a second's nanoseconds. -/
theorem roundTripLosesLessThanOneStep : Obligations.RoundTripLosesLessThanOneStep := by
  refine ⟨decode_encode_loss_bounds, fun x b hle hlt => ?_⟩
  rw [← digits10_eq_nine hle hlt]
  exact decode_encode_loss_bounds x b

/-- Settles O39: the numerator is the operand itself, zero-extended to its own width. -/
theorem decdecAnswersTheNumerator : Obligations.DecdecAnswersTheNumerator := by
  refine fun s bits => ⟨fun hwidth => ?_, exec_decdec_of_gt⟩
  rw [exec_decdec_of_le hwidth, zext64, BitVec.ofNat_toNat, BitVec.setWidth_eq]

end Sys2Proof.Machine
end

section
/-! The accessors (spec/44_accessors.md): what `GETPAY` reads and where it faults (R96), and the
timestamp, version and variant as slices of the identifier's integer (R93 to R95). -/

namespace Sys2Proof.Machine

open Sys2Proof.Safety

/-! ### `GETPAY` (R96) -/

/-- A length of 0 reads nothing, so it is in range from everywhere. -/
theorem payloadLoop_ok {start n : Nat} (id : Ident) (h : n = 0 ∨ start + n ≤ 86) :
    payloadLoop id start n 0 0 =
      .ok (readBits (fun m => id.getMsbD (absolute (start + m))) n 0 0) := by
  obtain rfl | hrange := h
  · rfl
  · exact payloadLoop_inRange id start n 0 0 hrange

theorem exec_getpay_of_error {s : State} {start len : Field} {e : BitFault}
    (h : payloadLoop s.sampled.opId start.toNat len.toNat 0 0 = .error e) :
    exec (.getpay start len) s = .next (stopped s 4 e.finfo) := by
  simp only [exec, execGetpay, h]; rfl

/-- Settles O31: the loop is `readBits` where every access is in range, and otherwise stops at the
first offset past the payload. -/
theorem getpayReadsPayload : Obligations.GetpayReadsPayload := by
  refine fun s start len => ⟨fun hread => ?_, fun hlen hpast => ?_⟩
  · exact ⟨_, exec_getpay_of_ok (payloadLoop_ok _ hread), buf16_readBits _ (by omega)⟩
  · have hstop :=
      payloadLoop_outOfRange s.sampled.opId start.toNat len.toNat 0 0 hlen hpast (.inr rfl)
    have hindex : (if start.toNat ≤ 86 then 128 else start.toNat + 42) < 65536 := by
      split <;> omega
    rw [exec_getpay_of_error hstop, finfo_identifier _ hindex, identifierFinfo]

/-! ### Consecutive bits of the identifier as a slice of its integer (R7) -/

/-- Reading `n` consecutive bits from index `k` on is dropping what stands below them and keeping
`n` bits. -/
theorem readBits_getMsbD (id : Ident) {n k : Nat} (h : k + n ≤ 128) :
    readBits id.getMsbD n k 0 = id.toNat / 2 ^ (128 - k - n) % 2 ^ n := by
  apply Nat.eq_of_testBit_eq
  intro i
  rw [Nat.testBit_mod_two_pow, Nat.testBit_div_two_pow]
  by_cases hi : i < n
  · have hread := readBits_testBit id.getMsbD n k (n - 1 - i) (by omega)
    have hslot : n - 1 - (n - 1 - i) = i := by omega
    have hweight : 128 - 1 - (k + (n - 1 - i)) = i + (128 - k - n) := by omega
    rw [hslot, getMsbD_eq_testBit id (by omega), hweight] at hread
    rw [hread, decide_eq_true hi, Bool.true_and]
  · have hlt : readBits id.getMsbD n k 0 < 2 ^ i :=
      (readBits_lt _ n k).trans_le (Nat.pow_le_pow_right (by omega) (by omega))
    rw [Nat.testBit_lt_two_pow hlt, decide_eq_false hi, Bool.false_and]

/-- A byte shifted right by `m` is the slice of its `8 - m` high bits. -/
theorem identByte_div_two_pow (id : Ident) (j : Nat) {m : Nat} (hm : m ≤ 8) :
    identByte id j / 2 ^ m = id.toNat / 2 ^ (8 * (15 - j) + m) % 2 ^ (8 - m) := by
  have hpow : (256 : Nat) ^ (15 - j) = 2 ^ (8 * (15 - j)) := by rw [pow_mul]; rfl
  have hbyte : (256 : Nat) = 2 ^ m * 2 ^ (8 - m) := by
    rw [← pow_add, Nat.add_sub_cancel' hm]; rfl
  rw [identByte, hpow, hbyte, Nat.mod_mul_right_div_self, Nat.div_div_eq_div_mul, ← pow_add]

/-! ### The timestamp and the markers (R93 to R95) -/

theorem timestampOf_eq (id : Ident) : timestampOf id = id.toNat / 2 ^ 92 := by
  have hfits : id.toNat / 2 ^ 92 < 2 ^ 36 := by omega
  rw [timestampOf, readBits_getMsbD id (by decide)]
  exact Nat.mod_eq_of_lt hfits

theorem versionOf_eq_readBits (id : Ident) : versionOf id = readBits id.getMsbD 4 48 0 := by
  simp only [versionOf, readBits, Nat.reduceAdd]; omega

theorem variantOf_eq_readBits (id : Ident) : variantOf id = readBits id.getMsbD 2 64 0 := by
  simp only [variantOf, readBits, Nat.reduceAdd]; omega

theorem versionOf_eq (id : Ident) : versionOf id = identByte id 6 / 16 := by
  rw [versionOf_eq_readBits, readBits_getMsbD id (by decide)]
  exact (identByte_div_two_pow id 6 (m := 4) (by decide)).symm

theorem variantOf_eq (id : Ident) : variantOf id = identByte id 8 / 64 := by
  rw [variantOf_eq_readBits, readBits_getMsbD id (by decide)]
  exact (identByte_div_two_pow id 8 (m := 6) (by decide)).symm

theorem exec_getts (s : State) : exec .getts s =
    .next (answered s 0 0 (BitVec.ofNat 64 (timestampOf s.sampled.opId))) := rfl

theorem exec_getver (s : State) : exec .getver s =
    .next (answered s 0 0 (BitVec.ofNat 64 (versionOf s.sampled.opId))) := rfl

theorem exec_getvar (s : State) : exec .getvar s =
    .next (answered s 0 0 (BitVec.ofNat 64 (variantOf s.sampled.opId))) := rfl

/-- Settles O33: the 36 bits from index 0 on are all that stands above weight `2^92`. -/
theorem gettsReadsTopBits : Obligations.GettsReadsTopBits := by
  intro s
  rw [exec_getts, timestampOf_eq]

/-- Settles O34: each marker is the slice at the top of its byte. -/
theorem getverGetvarReadMarkers : Obligations.GetverGetvarReadMarkers := by
  refine fun s => ⟨?_, ?_⟩
  · rw [exec_getver, versionOf_eq]
  · rw [exec_getvar, variantOf_eq]

end Sys2Proof.Machine
end

section
/-! The transition table (spec/45_generator.md R126): the rows of the step, how the row of BUSY ends,
and the core stopped in FAULT. -/

namespace Sys2Proof.Machine

open Sys2Proof.Safety

/-! ### The rows outside BUSY -/

theorem step_of_reset {s : State} (hrst : (inputsNow s).rst = true) :
    step s = .next (resetEdge (pastEdge s)) := if_pos hrst

theorem step_of_idle_without_command {s : State} (hidle : s.regs.fsm = .idle)
    (hrst : (inputsNow s).rst = false) (hvalid : (inputsNow s).cmdValid = false) :
    step s = .next (quietEdge (pastEdge s)) := by
  simp [step, hrst, hidle, hvalid]

theorem step_of_idle_with_command {s : State} (hidle : s.regs.fsm = .idle)
    (hrst : (inputsNow s).rst = false) (hvalid : (inputsNow s).cmdValid = true) :
    step s = .next (acceptCommand (inputsNow s).data (pastEdge s)) := by
  simp [step, hrst, hidle, hvalid]

theorem step_of_fault_without_reset {s : State} (hfault : s.regs.fsm = .fault)
    (hrst : (inputsNow s).rst = false) : step s = .next (quietEdge (pastEdge s)) := by
  simp [step, hrst, hfault]

/-! ### The row of BUSY -/

/-- `t` ends a command run at `s` as the table has it: in IDLE with a response, which unless OK leaves
every other register alone, or in FAULT without one, which leaves all but the fault record alone. -/
abbrev EndsByTheTable (s t : State) : Prop :=
  (∃ r, t.rsp = some r ∧ t.regs.fsm = .idle ∧
    (r.status ≠ 0 → t.regs = { s.regs with fsm := .idle })) ∨
  (t.rsp = none ∧
    t.regs = { s.regs with fsm := .fault, cause := t.regs.cause, finfo := t.regs.finfo })

theorem endsByTheTable_ok {s : State} (r : Regs) (id : Ident) (val : BitVec 64) :
    EndsByTheTable s (respond .ok id val { s with regs := r }) :=
  .inl ⟨_, rfl, rfl, fun hstatus => absurd rfl hstatus⟩

theorem endsByTheTable_refuse (code : Code) (s : State) : EndsByTheTable s (refuse code s) :=
  .inl ⟨_, rfl, rfl, fun _ => rfl⟩

theorem endsByTheTable_raise (code : Code) (info : BitVec 17) (s : State) :
    EndsByTheTable s (raise code info s) := .inr ⟨rfl, rfl⟩

theorem exec_endsByTheTable {i : Instr} {s t : State} (h : exec i s = .next t) :
    EndsByTheTable s t := by
  rcases exec_cases i s with ⟨id, val, he⟩ | ⟨code, -, he⟩ | ⟨he, -⟩ | ⟨e, he⟩ |
    ⟨sub, cnt, node, -, -, he⟩ | ⟨g, -, -, -, -, he⟩ <;> cases he.symm.trans h
  · exact endsByTheTable_ok _ _ _
  · exact endsByTheTable_refuse _ _
  · exact endsByTheTable_raise _ _ _
  · exact endsByTheTable_raise _ _ _
  · exact endsByTheTable_ok _ _ _
  · exact endsByTheTable_ok _ _ _

theorem runSampled_endsByTheTable {s t : State} (h : runSampled s = .next t) :
    EndsByTheTable s t := by
  cases hd : decode s.sampled.cmd with
  | ok i => exact exec_endsByTheTable ((runSampled_of_ok hd).symm.trans h)
  | error e =>
    cases (runSampled_of_error hd).symm.trans h
    exact endsByTheTable_refuse _ _

/-! ### A run in FAULT -/

/-- A host that never asserts `rst` does not assert it at the coming edge, nor past its script. -/
theorem inputsNow_rst_eq_false {s : State} (h : ∀ p ∈ s.inputs, p.rst = false) :
    (inputsNow s).rst = false := by
  cases hin : s.inputs with
  | nil => rw [inputsNow, hin]; rfl
  | cons p rest =>
    rw [inputsNow_of_cons hin]
    exact h p (by simp [hin])

/-! ### The obligations -/

/-- Settles O13: each row of the table has its equation for `step`; the row of BUSY is `runSampled`. -/
theorem everyStepFollowsTransitionTable : Obligations.EveryStepFollowsTransitionTable := by
  intro s t h
  refine ⟨fun hrst => ?reset, fun hrst => ⟨fun hidle hvalid => ?quiet, fun hidle hvalid => ?accept,
    fun hbusy => ?busy, fun hfault => ?fault⟩⟩
  case reset => cases (step_of_reset hrst).symm.trans h; exact ⟨rfl, rfl⟩
  case quiet =>
    cases (step_of_idle_without_command hidle hrst hvalid).symm.trans h; exact ⟨rfl, rfl, rfl⟩
  case accept =>
    cases (step_of_idle_with_command hidle hrst hvalid).symm.trans h; exact ⟨rfl, rfl, rfl⟩
  case busy =>
    exact runSampled_endsByTheTable (s := pastEdge s)
      ((step_of_busy_of_rst_eq_false hbusy hrst).symm.trans h)
  case fault =>
    cases (step_of_fault_without_reset hfault hrst).symm.trans h
    exact ⟨rfl, rfl, by simp [State.cmdReady, hfault]⟩

/-- Settles O17, by induction on the steps: each is a quiet edge that stays in FAULT and uses up one
edge of the host's script. -/
theorem faultIsStickyUntilReset : Obligations.FaultIsStickyUntilReset := by
  intro k
  induction k with
  | zero =>
    intro s hfault hins
    rw [run_one]
    exact ⟨_, step_of_fault_without_reset hfault (inputsNow_rst_eq_false hins), rfl, rfl⟩
  | succ k ih =>
    intro s hfault hins
    rw [run_succ_of_next (k + 1)
      (step_of_fault_without_reset hfault (inputsNow_rst_eq_false hins))]
    exact ih (quietEdge (pastEdge s)) hfault fun p hp => hins p (List.mem_of_mem_tail hp)

end Sys2Proof.Machine
end

section
/-! The operations of the generator (spec/45_generator.md R101 to R105, R125): `NOP`, `CFG`, `RDREG`,
and the outcomes of `NEXT` by what it checks first. -/

namespace Sys2Proof.Machine

open Sys2Proof.Safety

/-! ### `NOP` (R101) -/

theorem eq_nop_of_opcode {i : Instr} (h : i.opcode = 0#4) : i = .nop := by
  cases i with
  | nop => rfl
  | _ => simp [Instr.opcode] at h

/-- `NOP` has one word: every other word with its operation code is rejected. -/
theorem decode_error_of_opField_zero {w : Command} (hop : opField w = 0#4) (hw : w ≠ 0) :
    ∃ e, decode w = .error e := by
  cases hd : decode w with
  | error e => exact ⟨e, rfl⟩
  | ok i =>
    have hi : i = .nop := eq_nop_of_opcode ((opField_of_decode hd).symm.trans hop)
    subst hi
    exact absurd (encode_of_decode hd).symm hw

/-! ### `CFG` (R103, R104) -/

/-- Legal widths are below `2^7`, so the registers hold them unchanged (R56). -/
theorem configure_widths_toNat {sub cnt node : Nat} (value : Source) (r : Regs)
    (hlegal : configLegal sub cnt node = true) :
    (configure sub cnt node value r).cfgSubsecBits.toNat = sub ∧
      (configure sub cnt node value r).cfgCounterBits.toNat = cnt ∧
      (configure sub cnt node value r).cfgNodeBits.toNat = node := by
  obtain ⟨hsub, hcnt, hnode, -⟩ := configLegal_iff.mp hlegal
  simp only [configure_cfgSubsecBits, configure_cfgCounterBits, configure_cfgNodeBits,
    BitVec.toNat_ofNat]
  omega

theorem legalConfiguration_configure {sub cnt node : Nat} (value : Source) (r : Regs)
    (hlegal : configLegal sub cnt node = true) :
    LegalConfiguration (configure sub cnt node value r) := by
  obtain ⟨hsub, hcnt, hnode⟩ := configure_widths_toNat value r hlegal
  intro _
  rw [hsub, hcnt, hnode]
  exact configLegal_iff.mp hlegal

theorem exec_cfg_of_legal {s : State} {sub cnt node : Field}
    (hlegal : configLegal sub.toNat cnt.toNat node.toNat = true) :
    exec (.cfg sub cnt node) s = .next (answered
      { s with regs := configure sub.toNat cnt.toNat node.toNat s.sampled.opSrc s.regs } 0 0 0) :=
  if_pos hlegal

theorem exec_cfg_of_illegal {s : State} {sub cnt node : Field}
    (hillegal : configLegal sub.toNat cnt.toNat node.toNat = false) :
    exec (.cfg sub cnt node) s = .next (answered s 2 0 0) := if_neg (by simp [hillegal])

/-- A `CFG` answered OK was legal, and these are its registers. -/
theorem exec_cfg_ok {s t : State} {r : Response} {sub cnt node : Field}
    (h : exec (.cfg sub cnt node) s = .next t) (hr : t.rsp = some r) (hok : r.status = 0) :
    configLegal sub.toNat cnt.toNat node.toNat = true ∧ t.regs =
      { configure sub.toNat cnt.toNat node.toNat s.sampled.opSrc s.regs with fsm := .idle } := by
  cases hlegal : configLegal sub.toNat cnt.toNat node.toNat with
  | true => cases (exec_cfg_of_legal hlegal).symm.trans h; exact ⟨rfl, rfl⟩
  | false => cases (exec_cfg_of_illegal hlegal).symm.trans h; cases hr; cases hok

/-! ### `RDREG` (R125, R26) -/

theorem exec_rdreg_of_some {s : State} {number : Field} {v : BitVec 64}
    (h : regView s.regs number.toNat = some v) :
    exec (.rdreg number) s = .next (answered s 0 0 v) := by
  simp only [exec, execRdreg, h]; rfl

theorem exec_rdreg_of_none {s : State} {number : Field} (h : regView s.regs number.toNat = none) :
    exec (.rdreg number) s = .next (answered s 6 0 0) := by
  simp only [exec, execRdreg, h]; rfl

theorem regView_of_gt (r : Regs) {n : Nat} (h : 7 < n) : regView r n = none := by
  obtain ⟨m, rfl⟩ := Nat.exists_eq_add_of_le' h
  rfl

/-- The bits of `STATUS` do not overlap, so the view is the sum of its parts (R25). -/
theorem statusView_eq (r : Regs) : statusView r = BitVec.ofNat 64
    (r.configured.toNat + 2 * r.prevValid.toNat + 4 * r.counterActive.toNat
      + 16 * r.cause.toNat) := by
  have hparts : ∀ (c p a : Bool) (cause : BitVec 4),
      flagAt c 0 ||| flagAt p 1 ||| flagAt a 2 ||| cause.setWidth 64 <<< 4 =
        BitVec.ofNat 64 (c.toNat + 2 * p.toNat + 4 * a.toNat + 16 * cause.toNat) := by decide
  exact hparts _ _ _ _

/-! ### `NEXT`, from what it checks first (R105) -/

theorem exec_next_of_not_configured {s : State} (hconf : s.regs.configured = false) :
    exec .next s = .next (answered s 5 0 0) := if_pos hconf

theorem exec_next_of_no_entropy {s : State} (hconf : s.regs.configured = true)
    (hrnd : s.sampled.rndOk = false) : exec .next s = .next (stopped s 3 0) := by
  simp only [exec, execNext, hconf, hrnd]; rfl

theorem exec_next_of_ok {s : State} {g : Generated} (hconf : s.regs.configured = true)
    (hrnd : s.sampled.rndOk = true) (hg : generate s.regs s.sampled = .ok g) :
    exec .next s = .next (answered { s with regs := commitNext g s.regs } 0 g.id 0) := by
  simp only [exec, execNext, hconf, hrnd, hg]; rfl

theorem exec_next_of_error {s : State} {e : BitFault} (hconf : s.regs.configured = true)
    (hrnd : s.sampled.rndOk = true) (hg : generate s.regs s.sampled = .error e) :
    exec .next s = .next (stopped s 4 e.finfo) := by
  simp only [exec, execNext, hconf, hrnd, hg]; rfl

/-- A `NEXT` answered OK generated an identifier, and this is its response and its registers. -/
theorem exec_next_ok {s t : State} {r : Response} (h : exec .next s = .next t)
    (hr : t.rsp = some r) (hok : r.status = 0) :
    ∃ g, generate s.regs s.sampled = .ok g ∧ r.id = g.id ∧
      t.regs = { commitNext g s.regs with fsm := .idle } := by
  rcases execNext_cases s with ⟨-, he⟩ | ⟨-, -, he⟩ | ⟨g, -, -, hg, he⟩ | ⟨e, -, -, -, he⟩ <;>
    cases he.symm.trans h <;> cases hr
  · cases hok
  · exact ⟨g, hg, rfl, rfl⟩

/-- Under a legal configuration with random bits at hand, `NEXT` completes (R81, R117 (e)). -/
theorem exec_next_of_legal {s : State} (hconf : s.regs.configured = true)
    (hlegal : LegalConfiguration s.regs) (hrnd : s.sampled.rndOk = true) :
    FieldsFit s.regs (tieBreak s.regs (subsecEncoding s.regs s.sampled)) ∧
      exec .next s = .next (answered
        { s with regs := commitNext (generatedOf s.regs s.sampled) s.regs }
        0 (generatedOf s.regs s.sampled).id 0) := by
  obtain ⟨hsub, hcnt, hnode, hsum⟩ := hlegal hconf
  have hfit := fieldsFit_of_legal s.regs (tieBreak s.regs (subsecEncoding s.regs s.sampled))
    hsub hcnt hnode hsum
  exact ⟨hfit, exec_next_of_ok hconf hrnd (generate_of_fieldsFit _ _ hfit)⟩

/-! ### The obligations -/

/-- Settles O23: another word with `op` = 0 does not decode, so the step refuses it. -/
theorem nopAnswersOk : Obligations.NopAnswersOk := by
  refine ⟨fun _ => rfl, rfl, rfl, fun s hbusy hrst hop hw => ?_⟩
  obtain ⟨e, he⟩ := decode_error_of_opField_zero hop hw
  rw [step_of_busy_of_rst_eq_false hbusy hrst]
  exact runSampled_of_error (s := pastEdge s) he

/-- Settles O40: `configLegal` decides between the two outcomes. -/
theorem cfgConstructsOrRefuses : Obligations.CfgConstructsOrRefuses := by
  refine fun s sub cnt node => ⟨fun hsub hcnt hnode hsum => ?_, fun hbad => ?_⟩
  · have hlegal := configLegal_iff.mpr ⟨hsub, hcnt, hnode, hsum⟩
    exact ⟨_, exec_cfg_of_legal hlegal, rfl, configure_widths_toNat _ _ hlegal⟩
  · apply exec_cfg_of_illegal
    rw [Bool.eq_false_iff, Ne, configLegal_iff]
    omega

/-- Settles O41: a register narrower than the port is zero-extended, `STATUS` is `statusView_eq`. -/
theorem rdregReadsNumberedRegisters : Obligations.RdregReadsNumberedRegisters := by
  intro s
  simp only [BitVec.ofNat_toNat, ← statusView_eq]
  exact ⟨exec_rdreg_of_some rfl, exec_rdreg_of_some rfl, exec_rdreg_of_some rfl,
    exec_rdreg_of_some rfl, exec_rdreg_of_some rfl, exec_rdreg_of_some rfl, exec_rdreg_of_some rfl,
    exec_rdreg_of_some rfl, fun _ h => exec_rdreg_of_none (regView_of_gt _ h)⟩

/-- Settles O42: the two checks of `execNext`, in their order. -/
theorem nextChecksItsPreconditions : Obligations.NextChecksItsPreconditions :=
  ⟨rfl, rfl, fun _ => ⟨exec_next_of_not_configured, exec_next_of_no_entropy⟩⟩

end Sys2Proof.Machine
end

section
/-! A completed `NEXT` (spec/45_generator.md R109 to R118): the identifier by its fields, the timestamp
and markers read back, the tie-break over consecutive calls, and what the result depends on. -/

namespace Sys2Proof.Machine

open Sys2Proof.Safety

/-! ### The generated identifier (R116) -/

/-- Every payload bit, field by field. -/
theorem generatedOf_fields (r : Regs) (x : Sampled)
    (hfit : FieldsFit r (tieBreak r (subsecEncoding r x))) :
    let g := generatedOf r x
    let c0 := r.cfgSubsecBits.toNat
    let c1 := c0 + fieldWidth g.tie r.cfgCounterBits.toNat
    (∀ k, k < c0 → g.id.getMsbD (absolute k) = g.enc.getLsbD k) ∧
    (∀ k, c0 + k < c1 → g.id.getMsbD (absolute (c0 + k)) = g.ctr.getLsbD k) ∧
    (∀ k, c1 + k < g.cur → g.id.getMsbD (absolute (c1 + k)) = r.cfgNodeValue.getLsbD k) ∧
    (∀ l, g.cur ≤ l → l < 86 → g.id.getMsbD (absolute l) = x.rnd.getMsbD (absolute l)) := by
  intro g c0 c1
  have hcur : g.cur = c1 + r.cfgNodeBits.toNat := rfl
  have hcur_le : g.cur ≤ 86 := fieldsFit_cur_le r _ hfit
  have hbit : ∀ l, l < 86 → g.id.getMsbD (absolute l) =
      if l < c0 then g.enc.getLsbD l
      else if l < c1 then g.ctr.getLsbD (l - c0)
      else if l < g.cur then r.cfgNodeValue.getLsbD (l - c1)
      else x.rnd.getMsbD (absolute l) := generatedOf_payload_bits r x hfit
  have hc1 : c0 ≤ c1 := Nat.le_add_right _ _
  refine ⟨fun k hk => ?_, fun k hk => ?_, fun k hk => ?_, fun l hl hl86 => ?_⟩
  · rw [hbit _ (by omega), if_pos hk]
  · rw [hbit _ (by omega), if_neg (by omega), if_pos hk, Nat.add_sub_cancel_left]
  · rw [hbit _ (by omega), if_neg (by omega), if_neg (by omega), if_pos hk,
      Nat.add_sub_cancel_left]
  · rw [hbit l hl86, if_neg (by omega), if_neg (by omega), if_neg (by omega)]

/-- `GETTS` of a generated identifier (R117 (b)). -/
theorem timestampOf_generatedOf (r : Regs) (x : Sampled)
    (hfit : FieldsFit r (tieBreak r (subsecEncoding r x))) :
    timestampOf (generatedOf r x).id = x.nowSec.toNat % 2 ^ 36 := by
  obtain ⟨hsec, -⟩ := generatedOf_fixed_bits r x hfit
  rw [timestampOf_eq]
  apply Nat.eq_of_testBit_eq
  intro i
  rw [Nat.testBit_div_two_pow, Nat.testBit_mod_two_pow]
  by_cases hi : i < 36
  · have hbit := hsec (35 - i) (by omega)
    have hslot : 35 - (35 - i) = i := by omega
    have hweight : 128 - 1 - (35 - i) = i + 92 := by omega
    rw [getMsbD_eq_testBit _ (by omega), hslot, hweight] at hbit
    rw [hbit, decide_eq_true hi, Bool.true_and]
    rfl
  · have hlt : (generatedOf r x).id.toNat < 2 ^ (i + 92) :=
      (generatedOf r x).id.isLt.trans_le (Nat.pow_le_pow_right (by omega) (by omega))
    rw [Nat.testBit_lt_two_pow hlt, decide_eq_false hi, Bool.false_and]

/-- `GETVER` of a generated identifier (R117 (a)). -/
theorem versionOf_generatedOf (r : Regs) (x : Sampled)
    (hfit : FieldsFit r (tieBreak r (subsecEncoding r x))) :
    versionOf (generatedOf r x).id = 7 := by
  obtain ⟨-, h48, h49, h50, h51, -, -⟩ := generatedOf_fixed_bits r x hfit
  rw [versionOf, h48, h49, h50, h51]; rfl

/-- `GETVAR` of a generated identifier (R117 (a)). -/
theorem variantOf_generatedOf (r : Regs) (x : Sampled)
    (hfit : FieldsFit r (tieBreak r (subsecEncoding r x))) :
    variantOf (generatedOf r x).id = 2 := by
  obtain ⟨-, -, -, -, -, h64, h65⟩ := generatedOf_fixed_bits r x hfit
  rw [variantOf, h64, h65]; rfl

/-! ### The tie-break (R109) -/

theorem generatedOf_cur (r : Regs) (x : Sampled) : (generatedOf r x).cur =
    r.cfgSubsecBits.toNat + fieldWidth (tieBreak r (subsecEncoding r x)) r.cfgCounterBits.toNat
      + r.cfgNodeBits.toNat := rfl

theorem tieBreak_eq_true_iff {r : Regs} {enc : BitVec 64} :
    tieBreak r enc = true ↔ r.prevValid = true ∧ enc = r.prevSubsec := by
  simp [tieBreak]

/-- Before the first call there is nothing to tie with (R118 (a)). -/
theorem tieBreak_of_not_prevValid {r : Regs} (h : r.prevValid = false) (enc : BitVec 64) :
    tieBreak r enc = false := by
  simp [tieBreak, h]

/-- Without a sub-second width a recorded encoding is 0, and so is every new one (R108, R118 (b)). -/
theorem tieBreak_of_no_subsecond_width {r : Regs} (x : Sampled) (hfits : PrevSubsecFitsWidth r)
    (hwidth : r.cfgSubsecBits = 0) (hprev : r.prevValid = true) :
    tieBreak r (subsecEncoding r x) = true := by
  have hlt := hfits hprev
  rw [hwidth] at hlt
  have hrecorded : r.prevSubsec = 0 := BitVec.eq_of_toNat_eq (Nat.lt_one_iff.mp hlt)
  have hnew : subsecEncoding r x = 0 := if_neg (by simp [hwidth])
  exact tieBreak_eq_true_iff.mpr ⟨hprev, hnew.trans hrecorded.symm⟩

/-- The cursor register holds the whole cursor of a completed `NEXT` (R115). -/
theorem cursor_toNat_of_generate {r : Regs} {x : Sampled} {g : Generated}
    (hg : generate r x = .ok g) : (BitVec.ofNat 8 g.cur).toNat = g.cur := by
  have hle := generate_cur_le hg
  rw [BitVec.toNat_ofNat]
  omega

/-! ### What the result depends on -/

/-- The write loop reads its values in its range alone. -/
theorem writeBits_congr {dst : Nat → Nat} {f f' : Nat → Bool} {n k : Nat} (id : Ident)
    (h : ∀ m, k ≤ m → m < k + n → f m = f' m) :
    writeBits dst f n k id = writeBits dst f' n k id := by
  induction n generalizing k id with
  | zero => rfl
  | succ n ih =>
    rw [writeBits, writeBits, h k (by omega) (by omega)]
    exact ih _ fun m hk hm => h m (by omega) (by omega)

/-- The timestamp is packed from the low 36 bits of the second (R107). -/
theorem packTimestamp_congr {sec sec' : BitVec 64} (work : Ident)
    (h : sec.toNat % 2 ^ 36 = sec'.toNat % 2 ^ 36) :
    packTimestamp sec work = packTimestamp sec' work := by
  apply writeBits_congr
  intro i _ hi
  simp only [Config.tsBits] at hi
  have hbit : (sec.toNat % 2 ^ 36).testBit (35 - i) = (sec'.toNat % 2 ^ 36).testBit (35 - i) :=
    congrArg (Nat.testBit · (35 - i)) h
  have hlow : 35 - i < 36 := by omega
  show sec.toNat.testBit (35 - i) = sec'.toNat.testBit (35 - i)
  simpa only [Nat.testBit_mod_two_pow, hlow, decide_true, Bool.true_and] using hbit

/-- The random fill reads the random bits at the positions it fills (R112). -/
theorem fillRandom_congr {rnd rnd' : Ident} {cur : Nat} (work : Ident)
    (h : ∀ l, cur ≤ l → l < 86 → rnd.getMsbD (absolute l) = rnd'.getMsbD (absolute l)) :
    fillRandom rnd cur work = fillRandom rnd' cur work := by
  apply writeBits_congr
  intro l hl hlt
  simp only [Config.payloadBits] at hlt
  exact h l hl (by omega)

/-- The phases of `NEXT` read the sample through the packed timestamp, the encoding and the random
fill, and the last only when the fields were stacked. -/
theorem generate_congr {r : Regs} {x y : Sampled}
    (hsec : packTimestamp y.nowSec 0 = packTimestamp x.nowSec 0)
    (henc : subsecEncoding r y = subsecEncoding r x)
    (hrnd : ∀ g, generate r x = .ok g →
      ∀ work, fillRandom y.rnd g.cur work = fillRandom x.rnd g.cur work) :
    generate r y = generate r x := by
  unfold generate at hrnd ⊢
  rw [hsec, henc]
  simp only at hrnd ⊢
  split
  · rfl
  · next afterSubsec hsub =>
    rw [hsub] at hrnd
    simp only at hrnd
    split
    · rfl
    · next afterCounter hcnt =>
      rw [hcnt] at hrnd
      simp only at hrnd
      split
      · rfl
      · next work cur hnode =>
        rw [hnode] at hrnd
        rw [hrnd _ rfl]

theorem subsecEncoding_congr (r : Regs) {x y : Sampled} (h : y.nowNsec = x.nowNsec) :
    subsecEncoding r y = subsecEncoding r x := by
  rw [subsecEncoding, subsecEncoding, h]

/-- `NEXT` ends alike on the same registers, the same `rnd_ok` and the same outcome of its phases. -/
theorem exec_next_congr {s u t : State} (h : exec .next s = .next t) (hregs : u.regs = s.regs)
    (hok : u.sampled.rndOk = s.sampled.rndOk)
    (hgen : s.regs.configured = true → s.sampled.rndOk = true →
      generate u.regs u.sampled = generate s.regs s.sampled) :
    ∃ v, exec .next u = .next v ∧ v.rsp = t.rsp ∧ v.regs = t.regs := by
  cases hconf : s.regs.configured with
  | false =>
    cases (exec_next_of_not_configured hconf).symm.trans h
    exact ⟨_, exec_next_of_not_configured (by rw [hregs, hconf]), rfl, by simp [answered, hregs]⟩
  | true =>
    have hconf' : u.regs.configured = true := by rw [hregs, hconf]
    cases hrnd : s.sampled.rndOk with
    | false =>
      cases (exec_next_of_no_entropy hconf hrnd).symm.trans h
      exact ⟨_, exec_next_of_no_entropy hconf' (hok.trans hrnd), rfl, by simp [stopped, hregs]⟩
    | true =>
      have hrnd' : u.sampled.rndOk = true := hok.trans hrnd
      have hgen' := hgen hconf hrnd
      cases hg : generate s.regs s.sampled with
      | ok g =>
        cases (exec_next_of_ok hconf hrnd hg).symm.trans h
        exact ⟨_, exec_next_of_ok hconf' hrnd' (hgen'.trans hg), rfl, by simp [answered, hregs]⟩
      | error e =>
        cases (exec_next_of_error hconf hrnd hg).symm.trans h
        exact ⟨_, exec_next_of_error hconf' hrnd' (hgen'.trans hg), rfl, by simp [stopped, hregs]⟩

/-! ### The obligations -/

/-- Settles O43: `exec_next_of_legal` gives the registers, `generatedOf_fields` and
`generatedOf_fixed_bits` the identifier. -/
theorem nextAssemblesTheIdentifier : Obligations.NextAssemblesTheIdentifier := by
  intro s hconf hlegal hrnd
  obtain ⟨hfit, hexec⟩ := exec_next_of_legal hconf hlegal hrnd
  obtain ⟨hsec, hmarkers⟩ := generatedOf_fixed_bits _ _ hfit
  obtain ⟨hsub, hcnt, hnode, hrandom⟩ := generatedOf_fields _ _ hfit
  intro r x enc
  have henc : enc = subsecEncoding r x := (subsecEncoding_eq _ _).symm
  clear_value enc
  subst henc
  exact ⟨_, hexec, fieldsFit_cur_le _ _ hfit, hsec, hsub, hcnt, hnode, hrandom, hmarkers⟩

/-- Settles O44: the accessors read what `generatedOf` packed. -/
theorem identifierReadsBack : Obligations.IdentifierReadsBack := by
  intro s t u r h hr hok hid
  obtain ⟨g, hg, hrid, -⟩ := exec_next_ok h hr hok
  obtain ⟨hfit, rfl⟩ := generate_ok _ _ _ hg
  rw [exec_getver, exec_getvar, exec_getts, hid, hrid, versionOf_generatedOf _ _ hfit,
    variantOf_generatedOf _ _ hfit, timestampOf_generatedOf _ _ hfit]
  exact ⟨rfl, rfl, rfl⟩

/-- Settles O46: the first call records its encoding, which the second finds again. -/
theorem consecutiveTiesCountUp : Obligations.ConsecutiveTiesCountUp := by
  intro s t u r hconf hlegal h hr hok hu hrnd henc
  obtain ⟨g, hg, -, ht⟩ := exec_next_ok h hr hok
  obtain ⟨-, rfl⟩ := generate_ok _ _ _ hg
  have hregs : u.regs = { commitNext (generatedOf s.regs s.sampled) s.regs with fsm := .busy } := by
    rw [hu, ht]
  have htie : tieBreak u.regs (subsecEncoding u.regs u.sampled) = true := by
    refine tieBreak_eq_true_iff.mpr ⟨by rw [hregs]; rfl, ?_⟩
    rw [subsecEncoding_eq, hregs]
    exact (congrArg zext64 henc).trans (subsecEncoding_eq _ _).symm
  have hlegal' : LegalConfiguration u.regs := by rw [hregs]; exact hlegal
  obtain ⟨-, hexec⟩ := exec_next_of_legal (s := u) (by rw [hregs]; exact hconf) hlegal' hrnd
  have hcounter : u.regs.counter = t.regs.counter := by rw [hu]
  exact ⟨_, _, hexec, rfl, rfl, htie,
    (congrArg (nextCounter u.regs) htie).trans (congrArg (· + 1) hcounter)⟩

/-- Settles O47: a fresh generator has no recorded encoding to tie with. -/
theorem firstCallIsNeverATie : Obligations.FirstCallIsNeverATie := by
  intro s t u r sub cnt node h hr hok hu hrnd
  obtain ⟨hlegal, ht⟩ := exec_cfg_ok h hr hok
  have hregs : u.regs = { configure sub.toNat cnt.toNat node.toNat s.sampled.opSrc s.regs with
      fsm := .busy } := by rw [hu, ht]
  have htie : tieBreak u.regs (subsecEncoding u.regs u.sampled) = false :=
    tieBreak_of_not_prevValid (by rw [hregs]; rfl) _
  have hlegal' : LegalConfiguration u.regs := by
    rw [hregs]; exact legalConfiguration_configure s.sampled.opSrc s.regs hlegal
  obtain ⟨hfit, hexec⟩ := exec_next_of_legal (s := u) (by rw [hregs]; rfl) hlegal' hrnd
  have hcur := cursor_toNat_of_generate (generate_of_fieldsFit _ _ hfit)
  obtain ⟨hsub, -, hnode⟩ := configure_widths_toNat s.sampled.opSrc s.regs hlegal
  refine ⟨_, _, hexec, rfl, rfl, htie, congrArg (nextCounter u.regs) htie, rfl, hcur.trans ?_⟩
  rw [generatedOf_cur, htie, hregs]
  exact congrArg₂ (· + ·) hsub hnode

/-- Settles O48: under the invariant the recorded encoding is 0, as the new one is. -/
theorem withoutSubsecondWidthLaterCallsTie : Obligations.WithoutSubsecondWidthLaterCallsTie := by
  intro s hinv hconf hrnd hwidth hprev
  obtain ⟨hlegal, -, -, -, -, hfits, -, -⟩ := hinv
  have htie := tieBreak_of_no_subsecond_width s.sampled hfits hwidth hprev
  obtain ⟨hfit, hexec⟩ := exec_next_of_legal hconf hlegal hrnd
  have hcur := cursor_toNat_of_generate (generate_of_fieldsFit _ _ hfit)
  refine ⟨_, _, hexec, rfl, rfl, htie, congrArg (nextCounter s.regs) htie, hcur.trans ?_⟩
  rw [generatedOf_cur, htie, hwidth]
  simp [fieldWidth]

/-- Settles O49: with the same registers the checks of `NEXT` and its phases end alike. -/
theorem nextDependsOnNothingElse : Obligations.NextDependsOnNothingElse := by
  intro s u t h hregs hsec hnsec hok hbits
  refine exec_next_congr h hregs hok fun hconf hrnd => ?_
  rw [hregs]
  refine generate_congr (packTimestamp_congr 0 hsec) (subsecEncoding_congr s.regs hnsec)
    fun g hg work => fillRandom_congr work ?_
  cases (exec_next_of_ok hconf hrnd hg).symm.trans h
  rw [← cursor_toNat_of_generate hg]
  exact hbits

end Sys2Proof.Machine
end

section
/-! Illegal words and fault entry (spec/30_encoding.md R60, spec/60_exceptions.md R134 to R137): which
words are illegal, which accesses offend, and how a legal command ends. -/

namespace Sys2Proof.Machine

open Sys2Proof.Safety

/-! ### Illegal words (R60) -/

theorem extractLsb'_one_cField (w : Command) : (cField w).extractLsb' 1 7 = w.extractLsb' 1 7 := by
  rw [cField, BitVec.extractLsb'_extractLsb'_of_le (by decide)]

/-- R60 (c), by the decoder's own fields. -/
theorem unusedFieldNonzero_iff_fields (w : Command) : UnusedFieldNonzero w ↔
    ((opField w).toNat ∉ [3, 4] ∧ selField w ≠ 0#1) ∨
    ((opField w).toNat ∉ [1, 3, 4, 5, 6, 12, 13] ∧ aField w ≠ 0#8) ∨
    ((opField w).toNat ∉ [1, 6, 7, 8, 12] ∧ bField w ≠ 0#8) ∨
    ((opField w).toNat ∉ [1, 4] ∧ cField w ≠ 0#8) ∨
    ((opField w).toNat = 4 ∧ (cField w).extractLsb' 1 7 ≠ 0#7) := by
  rw [extractLsb'_one_cField]; rfl

/-- A word decodes when none of the clauses (a) to (c) of R60 applies: the decoder's row for each
operation code tests the fields that operation does not use. -/
theorem exists_decode_iff_no_clause (w : Command) : (∃ i, decode w = .ok i) ↔
    (opField w).toNat < 14 ∧ rsvField w = 0#3 ∧ ¬ UnusedFieldNonzero w := by
  rw [unusedFieldNonzero_iff_fields]
  by_cases hrsv : rsvField w = 0#3
  · have hlt : (opField w).toNat < 16 := (opField w).isLt
    generalize hop : (opField w).toNat = op at hlt
    simp only [decode, hrsv, hop, if_pos]
    interval_cases op <;> simp [ifUnusedZero_ok]
  · simp [decode, hrsv]

@[simp] theorem wellFormed_encdec_eq_false {bits : Field} :
    (Instr.encdec bits).wellFormed = false ↔ 64 < bits.toNat :=
  decide_eq_false_iff_not.trans Nat.not_le

@[simp] theorem wellFormed_decdec_eq_false {bits : Field} :
    (Instr.decdec bits).wellFormed = false ↔ 64 < bits.toNat :=
  decide_eq_false_iff_not.trans Nat.not_le

@[simp] theorem wellFormed_rdreg_eq_false {number : Field} :
    (Instr.rdreg number).wellFormed = false ↔ 7 < number.toNat :=
  decide_eq_false_iff_not.trans Nat.not_le

/-- Clauses (d) and (e) of R60: an operand above its operation's bound. -/
abbrev OperandTooLarge (w : Command) : Prop :=
  (((opField w).toNat = 7 ∨ (opField w).toNat = 8) ∧ 64 < (bField w).toNat) ∨
    ((opField w).toNat = 13 ∧ 7 < (aField w).toNat)

theorem operandTooLarge_encode (i : Instr) :
    OperandTooLarge (encode i) ↔ i.wellFormed = false := by
  cases i with
  | encdec bits => simp [OperandTooLarge, encode, opField_pack, bField_pack, Instr.opcode]
  | decdec bits => simp [OperandTooLarge, encode, opField_pack, bField_pack, Instr.opcode]
  | rdreg number => simp [OperandTooLarge, encode, opField_pack, aField_pack, Instr.opcode]
  | _ => simp [OperandTooLarge, encode, opField_pack, Instr.opcode, Instr.wellFormed]

theorem illegalWord_iff (w : Command) :
    IllegalWord w ↔ (¬ ∃ i, decode w = .ok i) ∨ OperandTooLarge w := by
  have hclauses : IllegalWord w ↔ 14 ≤ (opField w).toNat ∨ rsvField w ≠ 0#3 ∨
      UnusedFieldNonzero w ∨ OperandTooLarge w := Iff.rfl
  rw [hclauses, exists_decode_iff_no_clause, ← Nat.not_lt]
  tauto

theorem illegalWord_of_decode_error {w : Command} {e : Reject} (h : decode w = .error e) :
    IllegalWord w :=
  (illegalWord_iff w).mpr (.inl (by simp [h]))

theorem illegalWord_iff_of_decode {w : Command} {i : Instr} (h : decode w = .ok i) :
    IllegalWord w ↔ i.wellFormed = false := by
  rw [illegalWord_iff, ← operandTooLarge_encode, encode_of_decode h]
  exact or_iff_right (not_not_intro ⟨i, h⟩)

/-! ### The accesses that offend (R137) -/

/-- The out-of-range accesses a command can make: identifier indices up to `absolute 255`, that is 297,
and source indices or weights up to 255. -/
inductive Offending : BitFault → Prop where
  | identifier {i : Nat} (hlow : 128 ≤ i) (hhigh : i ≤ 297) : Offending ⟨.identifier, i⟩
  | source {i : Nat} (hlow : 64 ≤ i) (hhigh : i ≤ 255) : Offending ⟨.source, i⟩

theorem finfo_of_offending {e : BitFault} (h : Offending e) : ∃ i : Nat,
    (128 ≤ i ∧ i ≤ 297 ∧ e.finfo = identifierFinfo i) ∨
    (64 ≤ i ∧ i ≤ 255 ∧ e.finfo = sourceFinfo i) := by
  cases h with
  | @identifier i hlow hhigh => exact ⟨i, .inl ⟨hlow, hhigh, finfo_identifier i (by omega)⟩⟩
  | @source i hlow hhigh => exact ⟨i, .inr ⟨hlow, hhigh, finfo_source i (by omega)⟩⟩

theorem getBit_error {w : Nat} {kind : BufKind} {buf : BitVec w} {i : Nat} {e : BitFault}
    (h : getBit kind buf i = .error e) : w ≤ i ∧ e = ⟨kind, i⟩ := by
  rcases Nat.lt_or_ge i w with hi | hi
  · rw [getBit_inRange _ _ _ hi] at h; cases h
  · rw [getBit_outOfRange _ _ _ hi] at h; cases h; exact ⟨hi, rfl⟩

theorem setBit_error {w : Nat} {kind : BufKind} {buf : BitVec w} {i : Nat} {v : Bool}
    {e : BitFault} (h : setBit kind buf i v = .error e) : w ≤ i ∧ e = ⟨kind, i⟩ := by
  rcases Nat.lt_or_ge i w with hi | hi
  · rw [setBit_inRange _ _ _ _ hi] at h; cases h
  · rw [setBit_outOfRange _ _ _ _ hi] at h; cases h; exact ⟨hi, rfl⟩

theorem offending_identifier_field {index : Field} (h : 128 ≤ index.toNat) :
    Offending ⟨.identifier, index.toNat⟩ := .identifier h (by omega)

theorem offending_source_field {index : Field} (h : 64 ≤ index.toNat) :
    Offending ⟨.source, index.toNat⟩ := .source h (by omega)

theorem getOperandBit_error {sel : BufSel} {x : Sampled} {index : Field} {e : BitFault}
    (h : getOperandBit sel x index.toNat = .error e) : Offending e := by
  cases sel with
  | opId => obtain ⟨hi, rfl⟩ := getBit_error h; exact offending_identifier_field hi
  | opSrc => obtain ⟨hi, rfl⟩ := getBit_error h; exact offending_source_field hi

/-- Where a loop over the payload runs out of it: at position 128, or at its first position. -/
theorem offending_payload_end {start : Nat} (hs : start ≤ 255) :
    Offending ⟨.identifier, if start ≤ 86 then 128 else start + 42⟩ := by
  split
  · exact .identifier (by omega) (by omega)
  · exact .identifier (by omega) (by omega)

theorem stackLoop_error_offending {start n : Nat} {src : Source} {id : Ident} {e : BitFault}
    (hs : start ≤ 255) (h : stackLoop start src n 0 id = .error e) : Offending e := by
  rcases stackLoop_error start src n 0 id e (by omega) (.inr rfl) h with rfl | rfl
  · exact .source (by omega) (by omega)
  · exact offending_payload_end hs

theorem payloadLoop_error_offending {start n : Nat} {id : Ident} {e : BitFault}
    (hs : start ≤ 255) (h : payloadLoop id start n 0 0 = .error e) : Offending e := by
  by_cases hrange : n = 0 ∨ start + n ≤ 86
  · rw [payloadLoop_ok id hrange] at h; cases h
  · rw [payloadLoop_outOfRange id start n 0 0 (by omega) (by omega) (.inr rfl)] at h
    cases h
    exact offending_payload_end hs

/-! ### The accesses of `NEXT` (R108, R110, R111) -/

theorem stackField_error_offending {present : Bool} {src : Source} {n : Nat} {at_ : Ident × Nat}
    {e : BitFault} (hs : at_.2 ≤ 255) (h : stackField present src n at_ = .error e) :
    Offending e := by
  cases present with
  | false => cases h
  | true =>
    cases hl : stackLoop at_.2 src n 0 at_.1 with
    | ok id => simp [stackField, stack, hl] at h
    | error e' =>
      simp only [stackField, stack, hl, if_true, Except.error.injEq] at h
      exact h ▸ stackLoop_error_offending hs hl

/-- A field stacked within the payload ends within it. -/
theorem stackField_next_le {present : Bool} {src : Source} {n : Nat} {at_ r : Ident × Nat}
    (hs : at_.2 ≤ 86) (h : stackField present src n at_ = .ok r) : r.2 ≤ 86 := by
  obtain ⟨hrange, rfl⟩ := stackField_ok present src n at_.1 at_.2 r h
  show at_.2 + fieldWidth present n ≤ 86
  omega

/-- `NEXT`'s fields start within the payload, whatever the configuration. -/
theorem generate_error_offending {r : Regs} {x : Sampled} {e : BitFault}
    (h : generate r x = .error e) : Offending e := by
  simp only [generate] at h
  split at h
  · next hsub => cases h; exact stackField_error_offending (Nat.zero_le _) hsub
  · next afterSubsec hsub =>
    have hs := stackField_next_le (Nat.zero_le _) hsub
    split at h
    · next hcnt => cases h; exact stackField_error_offending (by omega) hcnt
    · next afterCounter hcnt =>
      have hc := stackField_next_le hs hcnt
      split at h
      · next hnode => cases h; exact stackField_error_offending (by omega) hnode
      · cases h

/-! ### How a command ends -/

/-- The ends of a command with legal operands: an answer other than "illegal command", or one of the
two fatal faults (R133 to R137). -/
inductive LegalEnd (s : State) : State → Prop where
  | answer (u : State) {status : BitVec 4} (id : Ident) (val : BitVec 64) (hstatus : status ≠ 6) :
      LegalEnd s (answered u status id val)
  | entropy : LegalEnd s (stopped s 3 0)
  | access {e : BitFault} (he : Offending e) : LegalEnd s (stopped s 4 e.finfo)

theorem LegalEnd.ne_refusal {s t : State} (h : LegalEnd s t) (u : State) :
    t ≠ answered u 6 0 0 := by
  intro heq
  have hrsp := congrArg State.rsp heq
  cases h with
  | answer _ _ _ hstatus =>
    exact hstatus (congrArg Response.status (Option.some.inj hrsp))
  | entropy => cases hrsp
  | access _ => cases hrsp

theorem exists_regView_of_le (r : Regs) {n : Nat} (h : n ≤ 7) : ∃ v, regView r n = some v := by
  interval_cases n <;> exact ⟨_, rfl⟩

/-- Illegal operands are refused by the operation itself (R87, R88, R125). -/
theorem exec_of_not_wellFormed {i : Instr} (s : State) (h : i.wellFormed = false) :
    exec i s = .next (answered s 6 0 0) := by
  cases i with
  | encdec bits => exact exec_encdec_of_gt (wellFormed_encdec_eq_false.mp h)
  | decdec bits => exact exec_decdec_of_gt (wellFormed_decdec_eq_false.mp h)
  | rdreg number =>
    exact exec_rdreg_of_none (regView_of_gt s.regs (wellFormed_rdreg_eq_false.mp h))
  | _ => cases h

theorem exec_of_wellFormed {i : Instr} (s : State) (h : i.wellFormed = true) :
    ∃ t, exec i s = .next t ∧ LegalEnd s t := by
  cases i with
  | nop => exact ⟨_, rfl, .answer s 0 0 (by decide)⟩
  | map l => exact ⟨_, exec_map s l, .answer _ _ _ (by decide)⟩
  | getts => exact ⟨_, exec_getts s, .answer _ _ _ (by decide)⟩
  | getver => exact ⟨_, exec_getver s, .answer _ _ _ (by decide)⟩
  | getvar => exact ⟨_, exec_getvar s, .answer _ _ _ (by decide)⟩
  | encdec bits =>
    exact ⟨_, exec_encdec_of_le (of_decide_eq_true h), .answer _ _ _ (by decide)⟩
  | decdec bits =>
    exact ⟨_, exec_decdec_of_le (of_decide_eq_true h), .answer _ _ _ (by decide)⟩
  | rdreg number =>
    obtain ⟨v, hv⟩ := exists_regView_of_le s.regs (of_decide_eq_true h)
    exact ⟨_, exec_rdreg_of_some hv, .answer _ _ _ (by decide)⟩
  | cfg sub cnt node =>
    cases hlegal : configLegal sub.toNat cnt.toNat node.toNat with
    | true => exact ⟨_, exec_cfg_of_legal hlegal, .answer _ _ _ (by decide)⟩
    | false => exact ⟨_, exec_cfg_of_illegal hlegal, .answer _ _ _ (by decide)⟩
  | next =>
    rcases execNext_cases s with ⟨hconf, -⟩ | ⟨hconf, hrnd, -⟩ | ⟨g, hconf, hrnd, hg, -⟩ |
      ⟨e, hconf, hrnd, hg, -⟩
    · exact ⟨_, exec_next_of_not_configured hconf, .answer _ _ _ (by decide)⟩
    · exact ⟨_, exec_next_of_no_entropy hconf hrnd, .entropy⟩
    · exact ⟨_, exec_next_of_ok hconf hrnd hg, .answer _ _ _ (by decide)⟩
    · exact ⟨_, exec_next_of_error hconf hrnd hg, .access (generate_error_offending hg)⟩
  | getbit sel index =>
    cases hacc : getOperandBit sel s.sampled index.toNat with
    | ok v => exact ⟨_, exec_getbit_of_ok hacc, .answer _ _ _ (by decide)⟩
    | error e => exact ⟨_, exec_getbit_of_error hacc, .access (getOperandBit_error hacc)⟩
  | setbit sel index v =>
    cases sel with
    | opId =>
      cases hacc : setBit .identifier s.sampled.opId index.toNat v with
      | ok buf => exact ⟨_, exec_setbit_opId_of_ok hacc, .answer _ _ _ (by decide)⟩
      | error e =>
        obtain ⟨hi, rfl⟩ := setBit_error hacc
        exact ⟨_, exec_setbit_opId_of_error hacc, .access (offending_identifier_field hi)⟩
    | opSrc =>
      cases hacc : setBit .source s.sampled.opSrc index.toNat v with
      | ok buf => exact ⟨_, exec_setbit_opSrc_of_ok hacc, .answer _ _ _ (by decide)⟩
      | error e =>
        obtain ⟨hi, rfl⟩ := setBit_error hacc
        exact ⟨_, exec_setbit_opSrc_of_error hacc, .access (offending_source_field hi)⟩
  | stack start len =>
    cases hloop : stackLoop start.toNat s.sampled.opSrc len.toNat 0 s.sampled.opId with
    | ok id =>
      exact ⟨_, exec_stack_of_ok (pos := start.toNat + len.toNat) (by rw [stack, hloop]),
        .answer _ _ _ (by decide)⟩
    | error e =>
      exact ⟨_, exec_stack_of_error hloop, .access (stackLoop_error_offending (by omega) hloop)⟩
  | getpay start len =>
    cases hloop : payloadLoop s.sampled.opId start.toNat len.toNat 0 0 with
    | ok f => exact ⟨_, exec_getpay_of_ok hloop, .answer _ _ _ (by decide)⟩
    | error e =>
      exact ⟨_, exec_getpay_of_error hloop,
        .access (payloadLoop_error_offending (by omega) hloop)⟩

/-- An operation refuses as illegal exactly the illegal operands. -/
theorem exec_eq_refusal_iff {i : Instr} {s : State} :
    exec i s = .next (answered s 6 0 0) ↔ i.wellFormed = false := by
  refine ⟨fun h => ?_, exec_of_not_wellFormed s⟩
  by_contra hwf
  obtain ⟨t, ht, hend⟩ := exec_of_wellFormed s (Bool.eq_true_of_not_eq_false hwf)
  exact hend.ne_refusal s (Host.Outcome.next.inj (ht.symm.trans h))

/-- A command in flight is refused as illegal, or it ends as a legal one. -/
theorem runSampled_legalEnd_or_refusal (s : State) :
    runSampled s = .next (answered s 6 0 0) ∨ ∃ t, runSampled s = .next t ∧ LegalEnd s t := by
  cases hd : decode s.sampled.cmd with
  | error e => exact .inl (runSampled_of_error hd)
  | ok i =>
    rw [runSampled_of_ok hd]
    cases hwf : i.wellFormed with
    | false => exact .inl (exec_of_not_wellFormed s hwf)
    | true => exact .inr (exec_of_wellFormed s hwf)

/-! ### The obligations -/

/-- Settles O5: a word that does not decode is refused by the step, and one that decodes is refused by
its operation exactly when its operands are illegal. -/
theorem illegalWordsAreRefused : Obligations.IllegalWordsAreRefused := by
  intro s hbusy hrst
  rw [step_of_busy_of_rst_eq_false hbusy hrst]
  show IllegalWord s.sampled.cmd ↔ runSampled (pastEdge s) = .next (answered (pastEdge s) 6 0 0)
  cases hd : decode s.sampled.cmd with
  | error e =>
    exact iff_of_true (illegalWord_of_decode_error hd) (runSampled_of_error (s := pastEdge s) hd)
  | ok i =>
    rw [runSampled_of_ok (s := pastEdge s) hd, exec_eq_refusal_iff, illegalWord_iff_of_decode hd]

/-- Settles O16: of the ends of a command only the two faults leave the core in `FAULT`, and the
record of an access is that of an offending one. -/
theorem faultEntryRecordsTheCause : Obligations.FaultEntryRecordsTheCause := by
  intro s t h hbusy hfault
  have hrst : (inputsNow s).rst = false := by
    by_contra hrst
    cases (step_of_reset (Bool.eq_true_of_not_eq_false hrst)).symm.trans h
    cases hfault
  rw [step_of_busy_of_rst_eq_false hbusy hrst] at h
  rcases runSampled_legalEnd_or_refusal (pastEdge s) with hr | ⟨t', hr, hend⟩
  · cases hr.symm.trans h; cases hfault
  · cases hr.symm.trans h
    cases hend with
    | answer => cases hfault
    | entropy => exact ⟨rfl, rfl, rfl, .inl ⟨rfl, rfl⟩⟩
    | access he => exact ⟨rfl, rfl, rfl, .inr ⟨rfl, finfo_of_offending he⟩⟩

end Sys2Proof.Machine
end

section
/-! Reset and hazards (spec/70_reset_and_hazards.md): the reset edge (R150), the order of identifiers by
their timestamps (R160), and the bit-reversed counter field that makes a later tied identifier compare
below an earlier one (R161). -/

namespace Sys2Proof.Machine

open Sys2Proof.Safety

/-! ### Reset (R150) -/

/-- Settles O11: reset is the first row of the step, whatever the state. -/
theorem resetEdgeFromEveryState : Obligations.ResetEdgeFromEveryState :=
  fun _ hrst => ⟨_, step_of_reset hrst, rfl, rfl, rfl, rfl⟩

/-! ### Comparing two buffers (R7) -/

/-- The first index at which two buffers differ decides their order. -/
theorem toNat_lt_of_first_difference {w i : Nat} {a b : BitVec w} (hi : i < w)
    (hagree : ∀ j, j < i → a.getMsbD j = b.getMsbD j) (ha : a.getMsbD i = false)
    (hb : b.getMsbD i = true) : a.toNat < b.toNat := by
  rw [getMsbD_eq_testBit _ hi] at ha hb
  refine Nat.lt_of_testBit (w - 1 - i) ha hb fun m hm => ?_
  by_cases hmw : m < w
  · have hbit := hagree (w - 1 - m) (by omega)
    have hweight : w - 1 - (w - 1 - m) = m := by omega
    rwa [getMsbD_eq_testBit _ (by omega), getMsbD_eq_testBit _ (by omega), hweight] at hbit
  · have hpow : 2 ^ w ≤ 2 ^ m := Nat.pow_le_pow_right (by omega) (by omega)
    rw [Nat.testBit_lt_two_pow (a.isLt.trans_le hpow), Nat.testBit_lt_two_pow (b.isLt.trans_le hpow)]

/-! ### Order by the timestamp (R160) -/

/-- The timestamp stands above every other bit. -/
theorem toNat_lt_of_timestampOf_lt {a b : Ident} (h : timestampOf a < timestampOf b) :
    a.toNat < b.toNat := by
  rw [timestampOf_eq, timestampOf_eq] at h
  exact Nat.lt_of_div_lt_div h

/-- What `NEXT` answers carries the second of its sample (R107, R117 (b)). -/
theorem timestampOf_next {s t : State} {r : Response} (h : exec .next s = .next t)
    (hr : t.rsp = some r) (hok : r.status = 0) :
    timestampOf r.id = s.sampled.nowSec.toNat % 2 ^ 36 := by
  obtain ⟨g, hg, hid, -⟩ := exec_next_ok h hr hok
  obtain ⟨hfit, rfl⟩ := generate_ok _ _ _ hg
  rw [hid, timestampOf_generatedOf _ _ hfit]

/-- Settles O45: each identifier's timestamp is the second of its call. -/
theorem timestampsOrderIdentifiers : Obligations.TimestampsOrderIdentifiers := by
  intro s u t v r q hs hr hrok hu hq hqok hsec
  apply toNat_lt_of_timestampOf_lt
  rwa [timestampOf_next hs hr hrok, timestampOf_next hu hq hqok]

/-! ### Order by the payload (R161) -/

/-- The markers do not depend on what stood there before (R113). -/
theorem forceMarkers_agree (work work' : Ident) {j : Nat}
    (hj : (48 ≤ j ∧ j ≤ 51) ∨ j = 64 ∨ j = 65) :
    (forceMarkers work').getMsbD j = (forceMarkers work).getMsbD j := by
  rw [forceMarkers_getMsbD, forceMarkers_getMsbD]
  by_cases hzero : j = 48 ∨ j = 65
  · rw [if_pos hzero, if_pos hzero]
  · have hone : j = 49 ∨ j = 50 ∨ j = 51 ∨ j = 64 := by omega
    rw [if_neg hzero, if_neg hzero, if_pos hone, if_pos hone]

/-- In equal seconds, identifiers whose payloads agree below offset `n` agree at every index below
that of `n`: the rest is timestamp and markers. -/
theorem generatedOf_agree_below {r r' : Regs} {x x' : Sampled} {n : Nat}
    (hfit : FieldsFit r (tieBreak r (subsecEncoding r x)))
    (hfit' : FieldsFit r' (tieBreak r' (subsecEncoding r' x')))
    (hsec : x'.nowSec.toNat % 2 ^ 36 = x.nowSec.toNat % 2 ^ 36) (hn : n < 86)
    (hpayload : ∀ l, l < n →
      (generatedOf r' x').id.getMsbD (absolute l) = (generatedOf r x).id.getMsbD (absolute l))
    {j : Nat} (hj : j < absolute n) :
    (generatedOf r' x').id.getMsbD j = (generatedOf r x).id.getMsbD j := by
  have hn128 : absolute n < 128 := (absolute_lt_iff n).mpr hn
  by_cases htime : j < 36
  · obtain ⟨ht, -⟩ := generatedOf_fixed_bits r x hfit
    obtain ⟨ht', -⟩ := generatedOf_fixed_bits r' x' hfit'
    have hpacked := congrArg (·.getMsbD j) (packTimestamp_congr 0 hsec)
    simp only [packTimestamp_getMsbD, if_pos htime] at hpacked
    rw [ht j htime, ht' j htime, hpacked]
  by_cases hmarker : (48 ≤ j ∧ j ≤ 51) ∨ j = 64 ∨ j = 65
  · exact forceMarkers_agree _ _ hmarker
  · obtain ⟨l, -, rfl⟩ := exists_logical (a := j) (by omega) (by omega) (by omega) (by omega)
      (by omega)
    have hmono : StrictMono absolute := fun _ _ => absolute_strictMono
    exact hpayload l (hmono.lt_iff_lt.mp hj)

/-- The counter stands with its least significant bit first, right after the encoding: of two ties
with equal seconds and encodings, the one with the odd counter compares above the one with the even
counter. -/
theorem generate_id_lt_of_counter_parity {r r' : Regs} {x x' : Sampled} {g g' : Generated}
    (hg : generate r x = .ok g) (hg' : generate r' x' = .ok g')
    (hsub : r'.cfgSubsecBits = r.cfgSubsecBits) (hcnt : 0 < r.cfgCounterBits.toNat)
    (hcnt' : 0 < r'.cfgCounterBits.toNat)
    (hsec : x'.nowSec.toNat % 2 ^ 36 = x.nowSec.toNat % 2 ^ 36) (henc : g'.enc = g.enc)
    (htie : g.tie = true) (htie' : g'.tie = true)
    (hodd : g.ctr.getLsbD 0 = true) (heven : g'.ctr.getLsbD 0 = false) :
    g'.id.toNat < g.id.toNat := by
  obtain ⟨hfit, rfl⟩ := generate_ok _ _ _ hg
  obtain ⟨hfit', rfl⟩ := generate_ok _ _ _ hg'
  obtain ⟨hencBit, hctrBit, -, -⟩ := generatedOf_fields r x hfit
  obtain ⟨hencBit', hctrBit', -, -⟩ := generatedOf_fields r' x' hfit'
  rw [htie] at hctrBit
  rw [htie'] at hctrBit'
  rw [hsub] at hencBit' hctrBit'
  have hfirst : r.cfgSubsecBits.toNat < 86 := by
    have htie : tieBreak r (subsecEncoding r x) = true := htie
    have hcur := fieldsFit_cur_le r _ hfit
    rw [htie, fieldWidth, if_pos rfl] at hcur
    omega
  apply toNat_lt_of_first_difference ((absolute_lt_iff _).mpr hfirst)
  · intro j hj
    refine generatedOf_agree_below hfit hfit' hsec hfirst (fun l hl => ?_) hj
    rw [hencBit l hl, hencBit' l hl, henc]
  · exact (hctrBit' 0 (Nat.lt_add_of_pos_right hcnt')).trans heven
  · exact (hctrBit 0 (Nat.lt_add_of_pos_right hcnt)).trans hodd

/-- Settles O50: the coming call counts 1 and `consecutiveTiesCountUp` takes the next one to 2, so the
two differ first in the parity of their counters. -/
theorem laterTiedIdentifierComparesBelow : Obligations.LaterTiedIdentifierComparesBelow := by
  intro s hconf hlegal hrnd hwidth hprev hzero hrecorded
  have htie : tieBreak s.regs (subsecEncoding s.regs s.sampled) = true :=
    tieBreak_eq_true_iff.mpr ⟨hprev, (subsecEncoding_eq _ _).trans hrecorded.symm⟩
  obtain ⟨hfit, hexec⟩ := exec_next_of_legal hconf hlegal hrnd
  have hg := generate_of_fieldsFit _ _ hfit
  have hone : (generatedOf s.regs s.sampled).ctr = 1 :=
    (congrArg (nextCounter s.regs) htie).trans (congrArg (· + 1) hzero)
  refine ⟨_, _, hexec, rfl, hone, fun u hu hrnd' hnsec hsec => ?_⟩
  obtain ⟨v, q, hv, hq, hok, htie', htwo⟩ := consecutiveTiesCountUp s _ u _ hconf hlegal hexec rfl rfl
    hu hrnd' (by rw [hnsec])
  have htwo : v.regs.counter = 2 := htwo.trans (congrArg (· + 1) hone)
  obtain ⟨g', hg', hid, hregs⟩ := exec_next_ok hv hq hok
  rw [hregs] at htie'
  have hctr : g'.ctr = 2 := by rw [← htwo, hregs]; rfl
  have hsub : u.regs.cfgSubsecBits = s.regs.cfgSubsecBits := by rw [hu]; rfl
  have hcnt : u.regs.cfgCounterBits = s.regs.cfgCounterBits := by rw [hu]; rfl
  have henc : g'.enc = (generatedOf s.regs s.sampled).enc := by
    obtain ⟨-, rfl⟩ := generate_ok _ _ _ hg'
    show subsecEncoding u.regs u.sampled = subsecEncoding s.regs s.sampled
    rw [subsecEncoding_eq, subsecEncoding_eq, hsub, hnsec]
  refine ⟨v, q, hv, hq, htwo, ?_⟩
  rw [hid]
  exact generate_id_lt_of_counter_parity hg hg' hsub (by omega) (by rw [hcnt]; omega) hsec henc htie
    htie' (by rw [hone]; rfl) (by rw [hctr]; rfl)

end Sys2Proof.Machine
end
